-- ==== Sys2Proof/Word.lean ====
section
/-! DEFINITION. The two word types of mycpu (00_scope.md R7, R9, R13). -/

namespace Sys2Proof

/-- An 8-bit byte (R13). -/
abbrev Byte := BitVec 8

/-- A 32-bit unsigned, wrapping value: a register, an operand, an address; the source's "doubleword"
(R7, R10, R13). -/
abbrev Word := BitVec 32

end Sys2Proof
end

