-- ==== Sys2Proof/Syntax.lean ====
section
/-! DEFINITION. The instruction set as syntax: the fields of an instruction record, the closed opcode
catalog of 30_encoding.md R97, and one constructor of `Instr` per row of spec/opcode_table.json. -/

namespace Sys2Proof

/-- The fields of a `DecodedInstruction` beside its opcode (R92, R12): three raw register bytes and the
operand. The decoder fills every field for every opcode (R93), so every instruction carries all four;
a field its opcode does not use is kept and ignored (R102). -/
structure Fields where
  /-- byte 1: first register index, `rA` (R90, R12) -/
  reg1 : Byte
  /-- byte 2: second register index, `rB` -/
  reg2 : Byte
  /-- byte 3: third register index, `rC` -/
  reg3 : Byte
  /-- bytes 4 to 7: the 32-bit operand, `imm` -/
  operand : Word
  deriving DecidableEq, Repr

/-- The names of the fields, for the "fields used" column of R97. -/
inductive FieldName where
  | reg1
  | reg2
  | reg3
  | operand
  deriving DecidableEq, Repr

/-- The closed opcode set of R97: 34 instructions and the Invalid sentinel, in the catalog's order. -/
inductive Opcode where
  | nop
  | halt
  | increment
  | decrement
  | add
  | subtract
  | multiply
  | divide
  | addImmediate
  | subtractImmediate
  | and
  | or
  | xor
  | negate
  | complement
  | loadImmediate
  | load
  | loadByte
  | loadDirect
  | loadDirectByte
  | store
  | storeByte
  | storeDirect
  | storeDirectByte
  | push
  | pop
  | jump
  | call
  | ret
  | branchEqual
  | branchNotEqual
  | move
  | compare
  | compareImmediate
  | invalid
  deriving DecidableEq, Repr

/-- Every opcode, in the order of R97. -/
def Opcode.all : List Opcode :=
  [.nop, .halt, .increment, .decrement, .add, .subtract,
   .multiply, .divide, .addImmediate, .subtractImmediate, .and, .or,
   .xor, .negate, .complement, .loadImmediate, .load, .loadByte,
   .loadDirect, .loadDirectByte, .store, .storeByte, .storeDirect, .storeDirectByte,
   .push, .pop, .jump, .call, .ret, .branchEqual,
   .branchNotEqual, .move, .compare, .compareImmediate, .invalid]

/-- One constructor per row of spec/opcode_table.json: the record `{opcode, reg1, reg2, reg3, operand}`
of R92 with its opcode as the constructor. -/
inductive Instr where
  /-- NOp, `nop` (R140) -/
  | nop (f : Fields)
  /-- Halt, `halt` (R141) -/
  | halt (f : Fields)
  /-- Increment, `inc` (R150) -/
  | increment (f : Fields)
  /-- Decrement, `dec` (R151) -/
  | decrement (f : Fields)
  /-- Add, `add` (R152) -/
  | add (f : Fields)
  /-- Subtract, `sub` (R153) -/
  | subtract (f : Fields)
  /-- Multiply, `mul` (R154) -/
  | multiply (f : Fields)
  /-- Divide, `div` (R155) -/
  | divide (f : Fields)
  /-- AddImmediate, `addi` (R156) -/
  | addImmediate (f : Fields)
  /-- SubtractImmediate, `subi` (R157) -/
  | subtractImmediate (f : Fields)
  /-- And, `and` (R180) -/
  | and (f : Fields)
  /-- Or, `or` (R181) -/
  | or (f : Fields)
  /-- XOr, `xor` (R182) -/
  | xor (f : Fields)
  /-- Negate, `neg` (R158) -/
  | negate (f : Fields)
  /-- Complement, `not` (R183) -/
  | complement (f : Fields)
  /-- LoadImmediate, `ldi` (R200) -/
  | loadImmediate (f : Fields)
  /-- Load, `ld` (R201) -/
  | load (f : Fields)
  /-- LoadByte, `ldb` (R202) -/
  | loadByte (f : Fields)
  /-- LoadDirect, `ldd` (R203) -/
  | loadDirect (f : Fields)
  /-- LoadDirectByte, `lddb` (R204) -/
  | loadDirectByte (f : Fields)
  /-- Store, `st` (R205) -/
  | store (f : Fields)
  /-- StoreByte, `stb` (R206) -/
  | storeByte (f : Fields)
  /-- StoreDirect, `std` (R207) -/
  | storeDirect (f : Fields)
  /-- StoreDirectByte, `stdb` (R208) -/
  | storeDirectByte (f : Fields)
  /-- Push, `push` (R209) -/
  | push (f : Fields)
  /-- Pop, `pop` (R210) -/
  | pop (f : Fields)
  /-- Jump, `jmp` (R230) -/
  | jump (f : Fields)
  /-- Call, `call` (R231) -/
  | call (f : Fields)
  /-- Return, `ret` (R232) -/
  | ret (f : Fields)
  /-- BranchEqual, `breq` (R233) -/
  | branchEqual (f : Fields)
  /-- BranchNotEqual, `brne` (R234) -/
  | branchNotEqual (f : Fields)
  /-- Move, `mov` (R211) -/
  | move (f : Fields)
  /-- Compare, `cmp` (R251) -/
  | compare (f : Fields)
  /-- CompareImmediate, `cmpi` (R252) -/
  | compareImmediate (f : Fields)
  /-- Invalid, `(Invalid)` (R142) -/
  | invalid (f : Fields)
  deriving DecidableEq, Repr

/-- The opcode of an instruction record (R92). -/
def Instr.opcode : Instr → Opcode
  | .nop _ => .nop
  | .halt _ => .halt
  | .increment _ => .increment
  | .decrement _ => .decrement
  | .add _ => .add
  | .subtract _ => .subtract
  | .multiply _ => .multiply
  | .divide _ => .divide
  | .addImmediate _ => .addImmediate
  | .subtractImmediate _ => .subtractImmediate
  | .and _ => .and
  | .or _ => .or
  | .xor _ => .xor
  | .negate _ => .negate
  | .complement _ => .complement
  | .loadImmediate _ => .loadImmediate
  | .load _ => .load
  | .loadByte _ => .loadByte
  | .loadDirect _ => .loadDirect
  | .loadDirectByte _ => .loadDirectByte
  | .store _ => .store
  | .storeByte _ => .storeByte
  | .storeDirect _ => .storeDirect
  | .storeDirectByte _ => .storeDirectByte
  | .push _ => .push
  | .pop _ => .pop
  | .jump _ => .jump
  | .call _ => .call
  | .ret _ => .ret
  | .branchEqual _ => .branchEqual
  | .branchNotEqual _ => .branchNotEqual
  | .move _ => .move
  | .compare _ => .compare
  | .compareImmediate _ => .compareImmediate
  | .invalid _ => .invalid

/-- The fields of an instruction record (R92). -/
def Instr.fields : Instr → Fields
  | .nop f => f
  | .halt f => f
  | .increment f => f
  | .decrement f => f
  | .add f => f
  | .subtract f => f
  | .multiply f => f
  | .divide f => f
  | .addImmediate f => f
  | .subtractImmediate f => f
  | .and f => f
  | .or f => f
  | .xor f => f
  | .negate f => f
  | .complement f => f
  | .loadImmediate f => f
  | .load f => f
  | .loadByte f => f
  | .loadDirect f => f
  | .loadDirectByte f => f
  | .store f => f
  | .storeByte f => f
  | .storeDirect f => f
  | .storeDirectByte f => f
  | .push f => f
  | .pop f => f
  | .jump f => f
  | .call f => f
  | .ret f => f
  | .branchEqual f => f
  | .branchNotEqual f => f
  | .move f => f
  | .compare f => f
  | .compareImmediate f => f
  | .invalid f => f

end Sys2Proof
end

