-- ==== Sys2Proof/Config.lean ====
section
/-! DEFINITION. The parameters the source leaves open (00_scope.md R8), as plain data, and the constraints
the spec puts on them. A machine state carries one `Config` (log entry 1), so a statement about every
state is a statement about every configuration. The default values stand in Sys2Proof/Decode.lean (opcode
codes) and Sys2Proof/Machine/Platform.lean (the rest). -/

namespace Sys2Proof

/-- The parameter `OPCODE_CODE` of R99, one byte per opcode, and `INVALID_CODE` as its last field
(92_eei_decisions.md D1, D2). -/
structure Encoding where
  nop : Byte
  halt : Byte
  increment : Byte
  decrement : Byte
  add : Byte
  subtract : Byte
  multiply : Byte
  divide : Byte
  addImmediate : Byte
  subtractImmediate : Byte
  and : Byte
  or : Byte
  xor : Byte
  negate : Byte
  complement : Byte
  loadImmediate : Byte
  load : Byte
  loadByte : Byte
  loadDirect : Byte
  loadDirectByte : Byte
  store : Byte
  storeByte : Byte
  storeDirect : Byte
  storeDirectByte : Byte
  push : Byte
  pop : Byte
  jump : Byte
  call : Byte
  ret : Byte
  branchEqual : Byte
  branchNotEqual : Byte
  move : Byte
  compare : Byte
  compareImmediate : Byte
  invalid : Byte
  deriving DecidableEq, Repr

/-- `OPCODE_CODE(o)` for an opcode other than Invalid, `INVALID_CODE` for Invalid: the byte the encoder
writes (R94, R99). -/
def Encoding.code (enc : Encoding) : Opcode → Byte
  | .nop => enc.nop
  | .halt => enc.halt
  | .increment => enc.increment
  | .decrement => enc.decrement
  | .add => enc.add
  | .subtract => enc.subtract
  | .multiply => enc.multiply
  | .divide => enc.divide
  | .addImmediate => enc.addImmediate
  | .subtractImmediate => enc.subtractImmediate
  | .and => enc.and
  | .or => enc.or
  | .xor => enc.xor
  | .negate => enc.negate
  | .complement => enc.complement
  | .loadImmediate => enc.loadImmediate
  | .load => enc.load
  | .loadByte => enc.loadByte
  | .loadDirect => enc.loadDirect
  | .loadDirectByte => enc.loadDirectByte
  | .store => enc.store
  | .storeByte => enc.storeByte
  | .storeDirect => enc.storeDirect
  | .storeDirectByte => enc.storeDirectByte
  | .push => enc.push
  | .pop => enc.pop
  | .jump => enc.jump
  | .call => enc.call
  | .ret => enc.ret
  | .branchEqual => enc.branchEqual
  | .branchNotEqual => enc.branchNotEqual
  | .move => enc.move
  | .compare => enc.compare
  | .compareImmediate => enc.compareImmediate
  | .invalid => enc.invalid

/-- The high nibble that R98 fixes for the opcode's code; `none` where the source places the opcode in no
group (Negate, Complement, LoadImmediate, Move, Compare, CompareImmediate) and for Invalid. -/
def Opcode.group : Opcode → Option Byte
  | .nop | .halt => some 0x0
  | .increment | .decrement | .add | .subtract | .multiply | .divide => some 0x1
  | .addImmediate | .subtractImmediate => some 0x1
  | .and | .or | .xor => some 0x2
  | .load | .loadByte | .loadDirect | .loadDirectByte => some 0x3
  | .store | .storeByte | .storeDirect | .storeDirectByte | .push | .pop => some 0x4
  | .jump | .call | .ret | .branchEqual | .branchNotEqual => some 0x5
  | .negate | .complement | .loadImmediate | .move | .compare | .compareImmediate => none
  | .invalid => none

/-- The constraints of R99: one code per opcode with `INVALID_CODE` outside the image (all 35 bytes
distinct), and the category nibbles of R98. -/
abbrev Encoding.Valid (enc : Encoding) : Prop :=
  (Opcode.all.map enc.code).Nodup ∧
    ∀ o ∈ Opcode.all, ∀ g ∈ o.group, (enc.code o) >>> 4 = g

/-- The parameter `CONSOLE_READ_OTHER` (R61, D13): what a byte read of the console at offsets 1 to 7
does. -/
inductive ConsoleReadOther where
  /-- the read raises `AddressFault` (the default) -/
  | fault
  /-- the read returns `0x00` -/
  | zero
  deriving DecidableEq, Repr

/-- Every named parameter of R8. -/
structure Config where
  /-- `OPCODE_CODE` and `INVALID_CODE` (D1, D2) -/
  enc : Encoding
  /-- `Z_BIT`, the place of the Zero flag in `sr` (R28, D8) -/
  zBit : Fin 32
  /-- `N_BIT` -/
  nBit : Fin 32
  /-- `C_BIT` -/
  cBit : Fin 32
  /-- `MEM_START`, the first address of Main Memory (R51, D11) -/
  memStart : Word
  /-- `MEM_SIZE`, how many bytes Main Memory has -/
  memSize : Nat
  /-- `CONSOLE_BASE`, the first address of the console window -/
  consoleBase : Word
  /-- `CONSOLE_READ_OTHER` (D13) -/
  consoleReadOther : ConsoleReadOther
  deriving DecidableEq, Repr

/-- `PROGRAM_BASE` is `MEM_START` (R70, D11). -/
def Config.programBase (c : Config) : Word := c.memStart

/-- Three distinct flag positions (R28). -/
abbrev Config.FlagBitsValid (c : Config) : Prop :=
  c.zBit ≠ c.nBit ∧ c.zBit ≠ c.cBit ∧ c.nBit ≠ c.cBit

/-- The constraints of R51 and D11 on the address map. -/
abbrev Config.MapValid (c : Config) : Prop :=
  c.memStart.toNat % 8 = 0 ∧ c.consoleBase.toNat % 8 = 0 ∧
  c.memSize ≠ 0 ∧ c.memSize % 8 = 0 ∧
  c.memStart.toNat + c.memSize ≤ 2 ^ 32 ∧ c.consoleBase.toNat ≤ 0xFFFFFFF8 ∧
  (c.consoleBase.toNat + 8 ≤ c.memStart.toNat ∨ c.memStart.toNat + c.memSize ≤ c.consoleBase.toNat)

/-- A configuration that meets every constraint of the spec; any other is rejected before the run
(93_implementation_defined.md U10). -/
abbrev Config.Valid (c : Config) : Prop :=
  c.enc.Valid ∧ c.FlagBitsValid ∧ c.MapValid

end Sys2Proof
end

