-- ==== Sys2Proof/Decode.lean ====
section
/-! DEFINITION. The instruction decoder block (30_encoding.md R90 to R95): 8 bytes to one instruction, total;
the encoder after it; the "fields used" column of the catalog R97; the byte-order helpers; the default
opcode codes. -/

namespace Sys2Proof

/-- Four bytes in address order as one doubleword, the lowest address most significant (R55). -/
def joinBytes (b0 b1 b2 b3 : Byte) : Word := b0 ++ b1 ++ b2 ++ b3

/-- Byte `k` of a doubleword in address order, `v[31-8k : 24-8k]` (R55, R57). -/
def wordByte (v : Word) (k : Nat) : Byte := v.extractLsb' (24 - 8 * k) 8

/-- The 8 bytes of an instruction in address order (R56, R90). -/
structure InstrBytes where
  b0 : Byte
  b1 : Byte
  b2 : Byte
  b3 : Byte
  b4 : Byte
  b5 : Byte
  b6 : Byte
  b7 : Byte
  deriving DecidableEq, Repr

/-- The bytes of an instruction, lowest address first. -/
def InstrBytes.toList (b : InstrBytes) : List Byte :=
  [b.b0, b.b1, b.b2, b.b3, b.b4, b.b5, b.b6, b.b7]

/-- The 64-bit word `W = b0 ++ b1 ++ ... ++ b7` (R90). -/
def InstrBytes.toWord (b : InstrBytes) : BitVec 64 :=
  b.b0 ++ b.b1 ++ b.b2 ++ b.b3 ++ b.b4 ++ b.b5 ++ b.b6 ++ b.b7

/-- The 8 bytes of a 64-bit word `W`, `b0 = W[63:56]` first (R90). -/
def InstrBytes.ofWord (w : BitVec 64) : InstrBytes :=
  { b0 := w.extractLsb' 56 8, b1 := w.extractLsb' 48 8, b2 := w.extractLsb' 40 8, b3 := w.extractLsb' 32 8,
    b4 := w.extractLsb' 24 8, b5 := w.extractLsb' 16 8, b6 := w.extractLsb' 8 8, b7 := w.extractLsb' 0 8 }

/-- The instruction record with this opcode and these fields (R92). -/
def Instr.ofRecord : Opcode → Fields → Instr
  | .nop, f => .nop f
  | .halt, f => .halt f
  | .increment, f => .increment f
  | .decrement, f => .decrement f
  | .add, f => .add f
  | .subtract, f => .subtract f
  | .multiply, f => .multiply f
  | .divide, f => .divide f
  | .addImmediate, f => .addImmediate f
  | .subtractImmediate, f => .subtractImmediate f
  | .and, f => .and f
  | .or, f => .or f
  | .xor, f => .xor f
  | .negate, f => .negate f
  | .complement, f => .complement f
  | .loadImmediate, f => .loadImmediate f
  | .load, f => .load f
  | .loadByte, f => .loadByte f
  | .loadDirect, f => .loadDirect f
  | .loadDirectByte, f => .loadDirectByte f
  | .store, f => .store f
  | .storeByte, f => .storeByte f
  | .storeDirect, f => .storeDirect f
  | .storeDirectByte, f => .storeDirectByte f
  | .push, f => .push f
  | .pop, f => .pop f
  | .jump, f => .jump f
  | .call, f => .call f
  | .ret, f => .ret f
  | .branchEqual, f => .branchEqual f
  | .branchNotEqual, f => .branchNotEqual f
  | .move, f => .move f
  | .compare, f => .compare f
  | .compareImmediate, f => .compareImmediate f
  | .invalid, f => .invalid f

/-- The "fields used" column of the catalog R97: the fields the opcode's rule reads or writes through,
in the order reg1, reg2, reg3, operand. -/
def Opcode.fieldsUsed : Opcode → List FieldName
  | .nop | .halt | .ret | .invalid => []
  | .increment | .decrement | .negate | .complement | .push | .pop => [.reg1]
  | .add | .subtract | .multiply | .divide | .and | .or | .xor => [.reg1, .reg2, .reg3]
  | .addImmediate | .subtractImmediate => [.reg1, .reg2, .operand]
  | .load | .loadByte | .store | .storeByte | .move | .compare => [.reg1, .reg2]
  | .loadImmediate | .loadDirect | .loadDirectByte | .storeDirect | .storeDirectByte
  | .compareImmediate => [.reg1, .operand]
  | .jump | .call | .branchEqual | .branchNotEqual => [.operand]

/-- The opcode whose code is `b`; Invalid when no opcode other than Invalid has that code (R93, R101). -/
def opcodeOf (enc : Encoding) (b : Byte) : Opcode :=
  match Opcode.all.find? (fun o => o ≠ .invalid ∧ enc.code o = b) with
  | some o => o
  | none => .invalid

/-- The decoder of R93: total; register bytes are kept raw, the operand is big-endian. -/
def decode (enc : Encoding) (b : InstrBytes) : Instr :=
  Instr.ofRecord (opcodeOf enc b.b0)
    { reg1 := b.b1, reg2 := b.b2, reg3 := b.b3, operand := joinBytes b.b4 b.b5 b.b6 b.b7 }

/-- The one reason a byte string is no instruction: it is not exactly 8 bytes long (R90, R103). An
unassigned opcode byte is no reason: it decodes to Invalid (R101). -/
inductive DecodeError where
  /-- the string has `length` bytes, not 8 -/
  | notEightBytes (length : Nat)
  deriving DecidableEq, Repr

/-- `decode` over any byte string, refusing by name a string that is not one 8-byte record (R90). -/
def decodeBytes (enc : Encoding) : List Byte → Except DecodeError Instr
  | [b0, b1, b2, b3, b4, b5, b6, b7] => .ok (decode enc ⟨b0, b1, b2, b3, b4, b5, b6, b7⟩)
  | bs => .error (.notEightBytes bs.length)

/-- The encoder of R94: total on every record. -/
def encode (enc : Encoding) (i : Instr) : InstrBytes :=
  { b0 := enc.code i.opcode
    b1 := i.fields.reg1, b2 := i.fields.reg2, b3 := i.fields.reg3
    b4 := wordByte i.fields.operand 0, b5 := wordByte i.fields.operand 1
    b6 := wordByte i.fields.operand 2, b7 := wordByte i.fields.operand 3 }

/-- The spec's default opcode codes (R97) and default `INVALID_CODE` (D2). DESIGN CHOICE of the spec, not of
the source; log entry 2. -/
def defaultEncoding : Encoding :=
  { nop := 0x00, halt := 0x01, increment := 0x10, decrement := 0x11, add := 0x12,
    subtract := 0x13, multiply := 0x14, divide := 0x15, addImmediate := 0x16, subtractImmediate := 0x17,
    and := 0x20, or := 0x21, xor := 0x22, negate := 0x18, complement := 0x23,
    loadImmediate := 0x30, load := 0x31, loadByte := 0x32, loadDirect := 0x33, loadDirectByte := 0x34,
    store := 0x40, storeByte := 0x41, storeDirect := 0x42, storeDirectByte := 0x43, push := 0x44,
    pop := 0x45, jump := 0x50, call := 0x51, ret := 0x52, branchEqual := 0x53,
    branchNotEqual := 0x54, move := 0x35, compare := 0x19, compareImmediate := 0x1A, invalid := 0xFF }

/-- The instruction the decoder reads, under the default codes, from the instruction whose 64-bit word `W`
(R90) has the low `nbits` bits of `w` and zeros above; `none` where `nbits` is more than an instruction has.
The table numbers bit 0 as the least significant bit of `W`, so the opcode byte is `W[63:56]` (log
entry 3). -/
def decodeTableWord (nbits w : Nat) : Option Instr :=
  if nbits ≤ 64 then
    some (decode defaultEncoding (InstrBytes.ofWord (BitVec.ofNat 64 (w % 2 ^ nbits))))
  else none

end Sys2Proof
end

