-- ==== Sys2Proof/Machine/Platform.lean ====
section
/-! DEFINITION. The default values of the parameters of 00_scope.md R8 that the spec uses for its examples (the
configuration EX of 92_eei_decisions.md D11, with the defaults of D8 and D13), the bus map they give, and
the register file at reset. -/

namespace Sys2Proof.Machine

/-- The configuration EX with the default opcode codes, flag positions and console read behaviour. DESIGN
CHOICE of the spec for its examples; log entry 2. -/
def exampleConfig : Config :=
  { enc := defaultEncoding
    zBit := 0, nBit := 1, cBit := 2
    memStart := 0x00001000, memSize := 0x1000
    consoleBase := 0x0000F000
    consoleReadOther := .fault }

/-- The two kinds of device on the bus (R2, R51). -/
inductive Device where
  /-- the flat byte array of R60 -/
  | mainMemory
  /-- the 8-byte output window of R61 to R63 -/
  | console
  deriving DecidableEq, Repr

/-- An entry of the bus configuration: a device and the closed range it claims (R50). -/
structure MappedDevice where
  /-- first address of the range -/
  start : Word
  /-- last address of the range (inclusive) -/
  last : Word
  device : Device
  deriving DecidableEq, Repr

/-- The bus configuration in registration order: Main Memory, then Console I/O (R51). -/
def devices (c : Config) : List MappedDevice :=
  [{ start := c.memStart, last := BitVec.ofNat 32 (c.memStart.toNat + c.memSize - 1), device := .mainMemory },
   { start := c.consoleBase, last := c.consoleBase + 7, device := .console }]

/-- The register file at reset: `pc` holds the program base, every other register 0 (R36). -/
def resetRegs (c : Config) : Vector Word 19 :=
  (Vector.replicate 19 0).set 16 c.programBase

end Sys2Proof.Machine
end

