-- ==== Sys2Proof/Machine/State.lean ====
section
/-! DEFINITION. The machine's state (10_state.md R20 to R36), the fault record (60_exceptions.md R300, R301),
the host's stop reasons, and the state after reset. -/

namespace Sys2Proof.Machine

/-- A register index 0..18: `r0`..`r15`, then `pc` (16), `sp` (17), `sr` (18) (R20, R21). -/
abbrev RegId := Fin 19

/-- The contents of Main Memory (R34): cells of (bus-global address, byte), addresses strictly rising, no
cell holding what an unlisted address reads as (`unlistedByte`, Machine/Ops.lean). Entry `a - MEM_START`
of the spec's array is held under its global address `a` (log entry 5). -/
abbrev Memory := List Host.Cell

/-- The five fault kinds of R300 with the information each records. -/
inductive FaultCause where
  /-- code 1: an address no device accepts; records the address -/
  | addressFault (a : Word)
  /-- code 2: a misaligned doubleword or fetch; records the address and the width, 4 or 8 -/
  | alignmentFault (a : Word) (width : Nat)
  /-- code 3: Divide by 0; records the address of the Divide -/
  | divideByZeroFault (a : Word)
  /-- code 4: Invalid was executed; records the address of the instruction -/
  | invalidInstructionFault (a : Word)
  /-- code 5: a used register field holds 19 or more; records the field's value -/
  | registerIndexFault (field : Byte)
  deriving DecidableEq, Repr

/-- The fault record of R301: kind and info together, and the address of the instruction whose step raised
the fault. -/
structure FaultRecord where
  cause : FaultCause
  pcFault : Word
  deriving DecidableEq, Repr

/-- The run state of the engine (R32). The halt flag is `run = halted`. -/
inductive RunState where
  | running
  | halted
  | faulted (f : FaultRecord)
  deriving DecidableEq, Repr

/-- Everything the spec gives the machine (R20 to R36), and the configuration it was built with, which no
instruction changes (R50; log entry 1). -/
structure State where
  /-- the parameters of R8: fixed before the run, carried here so that a statement about every state is
  one about every configuration -/
  cfg : Config
  /-- `x[0]` .. `x[18]` (R20) -/
  regs : Vector Word 19
  /-- the engine's run state (R32) -/
  run : RunState
  /-- the cycle counter, unbounded (R33) -/
  cycles : Nat
  /-- Main Memory (R34) -/
  mem : Memory
  /-- the console output stream, oldest byte first (R35) -/
  out : List Byte
  deriving DecidableEq, Repr

/-- Why no step is taken. A fault of the spec (R300) is NOT one of these: its entry is a next state with run
state `faulted` (R302). These are answered by `step` alone, in the two terminal states. -/
inductive Fault where
  /-- raised by `step` in run state `halted`: no step is enabled there (R126). Safe: the spec has no
  behaviour in this case. -/
  | engineHalted
  /-- raised by `step` in run state `faulted f`: no step is enabled there (R126, R305); carries the record
  reported to the host. Safe: the spec has no behaviour in this case. -/
  | engineFaulted (f : FaultRecord)
  deriving DecidableEq, Repr

/-- Why an instruction has no meaning in this model. -/
inductive Refusal where
  /-- raised by an arm of `exec` whose instruction has no meaning yet; no arm does now. Safe: nothing can be
  proved about a next state that is not answered. -/
  | notModelled (mnemonic : String)
  deriving DecidableEq, Repr

/-- The machine right after reset with no program loaded (R36, R330): `pc` at the program base, every other
register 0, running, no cycle counted, nothing output. Main Memory lists nothing (log entry 4); the
configuration is EX (log entry 2). -/
def State.reset : State :=
  { cfg := exampleConfig
    regs := resetRegs exampleConfig
    run := .running
    cycles := 0
    mem := []
    out := [] }

end Sys2Proof.Machine
end

