-- ==== Sys2Proof/Machine/Ops.lean ====
section
/-! DEFINITION. The shared operations: register access (10_state.md R20), Main Memory and the console device,
the bus dispatcher and its access primitives (20_memory.md), fault entry (60_exceptions.md R302), and the
stack operations that Push, Pop, Call and Return share (44_load_store.md R209, R210). -/

namespace Sys2Proof.Machine

/-! Registers. -/

/-- `pc` is register 16 (R21, R25). -/
def pcIx : RegId := 16

/-- `sp` is register 17 (R21, R27). -/
def spIx : RegId := 17

/-- `sr` is register 18 (R21, R28). -/
def srIx : RegId := 18

/-- `x[i]` (R20, R11). -/
def State.getReg (s : State) (i : RegId) : Word := s.regs.get i

/-- `x[i] <- v`: replaces the whole entry; no register is hardwired (R20, R21, R22). -/
def State.setReg (s : State) (i : RegId) (v : Word) : State :=
  { s with regs := s.regs.set i v }

/-- `pc` as a register read (R25). -/
def State.pc (s : State) : Word := s.getReg pcIx

/-- `sp` as a register read (R27). -/
def State.sp (s : State) : Word := s.getReg spIx

/-- `sr` as a register read (R28). -/
def State.sr (s : State) : Word := s.getReg srIx

/-! The other updates of a state, each of one field. -/

/-- Replace the contents of Main Memory. -/
def State.setMem (s : State) (m : Memory) : State := { s with mem := m }

/-- Append one byte to the console output stream (R35, R62). -/
def State.emit (s : State) (b : Byte) : State := { s with out := s.out ++ [b] }

/-- Replace the run state (R32). -/
def State.setRun (s : State) (r : RunState) : State := { s with run := r }

/-- Add 1 to the cycle counter (R33, R123). -/
def State.countCycle (s : State) : State := { s with cycles := s.cycles + 1 }

/-! Main Memory as a canonical list of cells. -/

/-- What an address with no cell reads as. DESIGN CHOICE (unsafe): the spec leaves `initMem` open (R36, D12);
log entry 4. -/
def unlistedByte : Byte := 0

/-- The byte held for an address. -/
def Memory.read : Memory → Nat → Byte
  | [], _ => unlistedByte
  | (k, b) :: m, a => if k = a then b else Memory.read m a

/-- Insert a cell before the first cell with a larger address. -/
def Memory.insert (a : Nat) (b : Byte) : Memory → Memory
  | [] => [(a, b)]
  | (k, c) :: m => if a < k then (a, b) :: (k, c) :: m else (k, c) :: Memory.insert a b m

/-- Remove every cell of an address. -/
def Memory.erase (m : Memory) (a : Nat) : Memory := m.filter (fun c => c.1 ≠ a)

/-- `mem[a] <- b`, keeping the canonical form: writing the byte an unlisted address reads as leaves the
address unlisted. -/
def Memory.write (m : Memory) (a : Nat) (b : Byte) : Memory :=
  if b = unlistedByte then m.erase a else Memory.insert a b (m.erase a)

/-- Write bytes at `a`, `a+1`, ... in order. -/
def Memory.writeList (m : Memory) (a : Nat) : List Byte → Memory
  | [] => m
  | b :: bs => Memory.writeList (m.write a b) (a + 1) bs

/-- The canonical form: addresses strictly rising, no cell equal to what an unlisted address reads as. -/
abbrev Memory.wf (m : Memory) : Prop :=
  m.Pairwise (fun c d => c.1 < d.1) ∧ ∀ c ∈ m, c.2 ≠ unlistedByte

/-! The bus dispatcher (R52). -/

/-- The entry claims the address: `start <= a <= end` (R50). -/
def MappedDevice.claims (e : MappedDevice) (a : Word) : Bool :=
  e.start.toNat ≤ a.toNat && a.toNat ≤ e.last.toNat

/-- The local offset of an address in an entry (R53). -/
def MappedDevice.offset (e : MappedDevice) (a : Word) : Word := a - e.start

/-- Dispatch: the last registered of the devices whose range contains the address, or `AddressFault` (R52). -/
def select (devs : List MappedDevice) (a : Word) : Except FaultCause MappedDevice :=
  match (devs.filter (fun e => e.claims a)).getLast? with
  | some e => .ok e
  | none => .error (.addressFault a)

/-! The device contract (R54): each operation is given the entry and the bus-global address. -/

/-- `read(off)` of a device: Main Memory answers its byte (R60); the console answers 0 at offset 0 and
follows `CONSOLE_READ_OTHER` at offsets 1 to 7 (R61). -/
def deviceRead (s : State) (e : MappedDevice) (a : Word) : Except FaultCause Byte :=
  match e.device with
  | .mainMemory => .ok (s.mem.read a.toNat)
  | .console =>
    if e.offset a = 0 then .ok 0
    else match s.cfg.consoleReadOther with
      | .fault => .error (.addressFault a)
      | .zero => .ok 0

/-- `read_doubleword(off)`: four `read` calls, big-endian; the first that faults ends it (R54, R55, R60,
R61). -/
def deviceReadDoubleword (s : State) (e : MappedDevice) (a : Word) : Except FaultCause Word :=
  do
    let b0 ← deviceRead s e a
    let b1 ← deviceRead s e (a + 1)
    let b2 ← deviceRead s e (a + 2)
    let b3 ← deviceRead s e (a + 3)
    return joinBytes b0 b1 b2 b3

/-- `write(off, b)` of a device: Main Memory stores the byte (R60); the console appends it to `out` at offset
0 and faults at any other (R62). -/
def deviceWrite (s : State) (e : MappedDevice) (a : Word) (b : Byte) : Except FaultCause State :=
  match e.device with
  | .mainMemory => .ok (s.setMem (s.mem.write a.toNat b))
  | .console =>
    if e.offset a = 0 then .ok (s.emit b) else .error (.addressFault a)

/-- `write_doubleword(off, v)`: Main Memory stores the four bytes, most significant first (R60); the console
passes the most significant byte to its byte write (R62). -/
def deviceWriteDoubleword (s : State) (e : MappedDevice) (a : Word) (v : Word) :
    Except FaultCause State :=
  match e.device with
  | .mainMemory =>
    .ok (s.setMem
      (s.mem.writeList a.toNat [wordByte v 0, wordByte v 1, wordByte v 2, wordByte v 3]))
  | .console => deviceWrite s e a (wordByte v 0)

/-- `read_instruction(off)`: 8 bytes in address order from Main Memory (R60); the console holds no instruction
bytes (R63). -/
def deviceReadInstruction (s : State) (e : MappedDevice) (a : Word) : Except FaultCause InstrBytes :=
  match e.device with
  | .mainMemory =>
    let byte := fun k => s.mem.read (a.toNat + k)
    .ok ⟨byte 0, byte 1, byte 2, byte 3, byte 4, byte 5, byte 6, byte 7⟩
  | .console => .error (.addressFault a)

/-- `size()` of a device (R54, R60, R63). -/
def deviceSize (c : Config) : Device → Nat
  | .mainMemory => c.memSize
  | .console => 8

/-! The access primitives of the instruction rules (R64 to R67). -/

/-- Dispatch and checks of an `n`-byte aligned access: unmapped, then misaligned, then past the device's end
(R58, R59, R67). -/
def selectAligned (c : Config) (a : Word) (n : Nat) : Except FaultCause MappedDevice :=
  match select (devices c) a with
  | .error k => .error k
  | .ok e =>
    if a.toNat % n ≠ 0 then .error (.alignmentFault a n)
    else if e.last.toNat < a.toNat + (n - 1) then .error (.addressFault a)
    else .ok e

/-- `MemRead(a, 1)` (R64). -/
def memReadByte (s : State) (a : Word) : Except FaultCause Byte :=
  match select (devices s.cfg) a with
  | .error k => .error k
  | .ok e => deviceRead s e a

/-- `MemRead(a, 4)` (R64). -/
def memReadWord (s : State) (a : Word) : Except FaultCause Word :=
  match selectAligned s.cfg a 4 with
  | .error k => .error k
  | .ok e => deviceReadDoubleword s e a

/-- `MemWrite(a, 1, b)` (R65). -/
def memWriteByte (s : State) (a : Word) (b : Byte) : Except FaultCause State :=
  match select (devices s.cfg) a with
  | .error k => .error k
  | .ok e => deviceWrite s e a b

/-- `MemWrite(a, 4, v)` (R65). -/
def memWriteWord (s : State) (a : Word) (v : Word) : Except FaultCause State :=
  match selectAligned s.cfg a 4 with
  | .error k => .error k
  | .ok e => deviceWriteDoubleword s e a v

/-- `Fetch(a)` (R66). -/
def fetch (s : State) (a : Word) : Except FaultCause InstrBytes :=
  match selectAligned s.cfg a 8 with
  | .error k => .error k
  | .ok e => deviceReadInstruction s e a

/-! Fault entry (R302). There is no return from a fault (R305): `faulted` is left only by a new reset. -/

/-- `raise F(info)`: the run state becomes `Faulted`, and nothing else changes (R302, R303). -/
def State.raise (s : State) (k : FaultCause) (pcFault : Word) : State :=
  s.setRun (.faulted { cause := k, pcFault := pcFault })

/-- The address of the instruction being executed: `pc` has been advanced by 8 and no rule writes it before
it raises (R25, R122, R301). -/
def State.instrAddress (s : State) : Word := s.pc - 8

/-- `raise` during execute (R122, R301, R302). -/
def State.raiseExec (s : State) (k : FaultCause) : State := s.raise k s.instrAddress

/-- Go on with a value, or enter the fault that came in its place. The state given is the one that the effects
so far have made: they remain (R303). -/
def State.orRaise {α : Type} (s : State) (r : Except FaultCause α) (go : α → State) : State :=
  match r with
  | .error k => s.raiseExec k
  | .ok v => go v

/-- The numeric code of a fault for the host's report (R300). -/
def FaultCause.code : FaultCause → Nat
  | .addressFault _ => 1
  | .alignmentFault _ _ => 2
  | .divideByZeroFault _ => 3
  | .invalidInstructionFault _ => 4
  | .registerIndexFault _ => 5

/-! The step's own effects (R121). -/

/-- The effects between fetch and execute: `pc` advanced by 8 modulo 2^32, one more cycle (R121, R26, R33). -/
def State.afterFetch (s : State) : State :=
  (s.setReg pcIx (s.pc + 8)).countCycle

/-- `state <- Halted` (R141). -/
def State.halt (s : State) : State := s.setRun .halted

/-! The stack (R209, R210, R231, R232). -/

/-- `x[17] <- x[17] - 4; MemWrite(x[17], 4, x[src])`, then `go`; `sp` stays decremented when the write
faults (R209, R303). The source register is read after the decrement (D10). -/
def pushReg (s : State) (src : RegId) (go : State → State) : State :=
  let s1 := s.setReg spIx (s.sp - 4)
  s1.orRaise (memWriteWord s1 s1.sp (s1.getReg src)) go

/-- `v <- MemRead(x[17], 4); x[dst] <- v; x[17] <- x[17] + 4`, the last reading `sp` after the write (R210,
D10). -/
def popReg (s : State) (dst : RegId) : State :=
  s.orRaise (memReadWord s s.sp) fun v =>
    let s1 := s.setReg dst v
    s1.setReg spIx (s1.sp + 4)

end Sys2Proof.Machine
end

