-- ==== Sys2Proof/Machine/Operands.lean ====
section
/-! DEFINITION. Operand forms: register fields with their range check (10_state.md R24, 40_fsm.md R124),
register-indirect and absolute addresses (44_load_store.md, 30_encoding.md R100). -/

namespace Sys2Proof.Machine

/-- A register field as a register index, or `RegisterIndexFault` with the field's value when it is 19 or
more (R24). -/
def regIndex (b : Byte) : Except FaultCause RegId :=
  if h : b.toNat < 19 then .ok ⟨b.toNat, h⟩ else .error (.registerIndexFault b)

/-- Check the one used register field reg1 (`rA`) before any effect (R124). -/
def State.withReg1 (s : State) (f : Fields) (go : RegId → State) : State :=
  s.orRaise (regIndex f.reg1) go

/-- Check reg1 then reg2 (`rA`, `rB`) (R124). -/
def State.withReg2 (s : State) (f : Fields) (go : RegId → RegId → State) : State :=
  s.orRaise (regIndex f.reg1) fun rA => s.orRaise (regIndex f.reg2) fun rB => go rA rB

/-- Check reg1, reg2, then reg3 (`rA`, `rB`, `rC`) (R124). -/
def State.withReg3 (s : State) (f : Fields) (go : RegId → RegId → RegId → State) : State :=
  s.orRaise (regIndex f.reg1) fun rA =>
    s.orRaise (regIndex f.reg2) fun rB => s.orRaise (regIndex f.reg3) fun rC => go rA rB rC

/-- The register operation `x[rA] <- op(x[rA])` (R150, R151, R158, R183). -/
def State.unary (s : State) (f : Fields) (op : Word → Word) : State :=
  s.withReg1 f fun rA => s.setReg rA (op (s.getReg rA))

/-- The three-register operation `x[rA] <- op(x[rB], x[rC])`, both sources read before the write (R23,
R152 to R154, R180 to R182). -/
def State.binary (s : State) (f : Fields) (op : Word → Word → Word) : State :=
  s.withReg3 f fun rA rB rC => s.setReg rA (op (s.getReg rB) (s.getReg rC))

/-- The immediate operation `x[rA] <- op(x[rB], imm)`; the operand is used unchanged (R100, R156, R157). -/
def State.binaryImm (s : State) (f : Fields) (op : Word → Word → Word) : State :=
  s.withReg2 f fun rA rB => s.setReg rA (op (s.getReg rB) f.operand)

/-- Load the doubleword at `a` into `rA`; on a fault nothing is written (R201, R203). -/
def State.loadWord (s : State) (rA : RegId) (a : Word) : State :=
  s.orRaise (memReadWord s a) fun v => s.setReg rA v

/-- Load the byte at `a`, zero-extended, into `rA` (R202, R204, D6). -/
def State.loadByte (s : State) (rA : RegId) (a : Word) : State :=
  s.orRaise (memReadByte s a) fun b => s.setReg rA (b.setWidth 32)

/-- Store `x[rA]` as a doubleword at `a` (R205, R207). -/
def State.storeWord (s : State) (rA : RegId) (a : Word) : State :=
  s.orRaise (memWriteWord s a (s.getReg rA)) id

/-- Store the least significant byte of `x[rA]` at `a` (R206, R208, D7). -/
def State.storeByte (s : State) (rA : RegId) (a : Word) : State :=
  s.orRaise (memWriteByte s a ((s.getReg rA).setWidth 8)) id

end Sys2Proof.Machine
end

