-- ==== Sys2Proof/Machine/Flags.lean ====
section
/-! DEFINITION. The flags of `sr` (10_state.md R28) and the flag computation of the compares (46_compare.md
R250). -/

namespace Sys2Proof.Machine

/-- The Zero flag, `sr[Z_BIT]` (R28). -/
def State.flagZ (s : State) : Bool := s.sr.getLsbD s.cfg.zBit

/-- The Negative flag, `sr[N_BIT]` (R28). -/
def State.flagN (s : State) : Bool := s.sr.getLsbD s.cfg.nBit

/-- The Carry flag, `sr[C_BIT]` (R28). -/
def State.flagC (s : State) : Bool := s.sr.getLsbD s.cfg.cBit

/-- A word with bit `i` as given and every other bit 0. -/
def flagBit (i : Fin 32) (b : Bool) : Word := if b then BitVec.twoPow 32 i else 0

/-- The value a compare of minuend `m` with subtrahend `t` writes to `sr`: Zero iff the difference is 0,
Negative its bit 31, Carry iff `t` is greater, unsigned; every other bit 0 (R250, D9). -/
def compareFlags (c : Config) (m t : Word) : Word :=
  flagBit c.zBit (m - t = 0) ||| flagBit c.nBit ((m - t).getLsbD 31) |||
    flagBit c.cBit (m.toNat < t.toNat)

/-- `setFlags(m, t)`: only `sr` is written (R250). -/
def State.setFlags (s : State) (m t : Word) : State := s.setReg srIx (compareFlags s.cfg m t)

end Sys2Proof.Machine
end

