-- ==== Sys2Proof/Machine/Arithmetic.lean ====
section
/-! DEFINITION. The arithmetic instructions (42_arithmetic.md R150 to R159): results modulo 2^32, no flag written. -/

namespace Sys2Proof.Machine

/-- Increment: `x[rA] <- x[rA] + 1` (R150). -/
def execIncrement (f : Fields) (s : State) : Host.Outcome State Fault Refusal :=
  .next (s.unary f fun v => v + 1)

/-- Decrement: `x[rA] <- x[rA] - 1` (R151). -/
def execDecrement (f : Fields) (s : State) : Host.Outcome State Fault Refusal :=
  .next (s.unary f fun v => v - 1)

/-- Add: `x[rA] <- x[rB] + x[rC]` (R152). -/
def execAdd (f : Fields) (s : State) : Host.Outcome State Fault Refusal :=
  .next (s.binary f fun b c => b + c)

/-- Subtract: `x[rA] <- x[rB] - x[rC]` (R153). -/
def execSubtract (f : Fields) (s : State) : Host.Outcome State Fault Refusal :=
  .next (s.binary f fun b c => b - c)

/-- Multiply: `x[rA] <- x[rB] * x[rC]`, the low 32 bits (R154). -/
def execMultiply (f : Fields) (s : State) : Host.Outcome State Fault Refusal :=
  .next (s.binary f fun b c => b * c)

/-- Divide: `DivideByZeroFault` with the address of the Divide when the divisor is 0, before any write; else the
unsigned quotient rounded toward zero (R155). -/
def execDivide (f : Fields) (s : State) : Host.Outcome State Fault Refusal :=
  .next (s.withReg3 f fun rA rB rC =>
    if s.getReg rC = 0 then s.raiseExec (.divideByZeroFault s.instrAddress)
    else s.setReg rA (s.getReg rB / s.getReg rC))

/-- AddImmediate: `x[rA] <- x[rB] + imm` (R156). -/
def execAddImmediate (f : Fields) (s : State) : Host.Outcome State Fault Refusal :=
  .next (s.binaryImm f fun b imm => b + imm)

/-- SubtractImmediate: `x[rA] <- x[rB] - imm` (R157). -/
def execSubtractImmediate (f : Fields) (s : State) : Host.Outcome State Fault Refusal :=
  .next (s.binaryImm f fun b imm => b - imm)

/-- Negate: `x[rA] <- 0 - x[rA]` (R158). -/
def execNegate (f : Fields) (s : State) : Host.Outcome State Fault Refusal :=
  .next (s.unary f fun v => 0 - v)

end Sys2Proof.Machine
end

