-- ==== Sys2Proof/Machine/Compare.lean ====
section
/-! DEFINITION. The compare instructions (46_compare.md R250 to R253), the only ones that write flags as a side effect. -/

namespace Sys2Proof.Machine

/-- Compare: `setFlags(x[rA], x[rB])` (R251). -/
def execCompare (f : Fields) (s : State) : Host.Outcome State Fault Refusal :=
  .next (s.withReg2 f fun rA rB => s.setFlags (s.getReg rA) (s.getReg rB))

/-- CompareImmediate: `setFlags(x[rA], imm)` (R252). -/
def execCompareImmediate (f : Fields) (s : State) : Host.Outcome State Fault Refusal :=
  .next (s.withReg1 f fun rA => s.setFlags (s.getReg rA) f.operand)

end Sys2Proof.Machine
end

