-- ==== Sys2Proof/Machine/ControlFlow.lean ====
section
/-! DEFINITION. The control-flow instructions (45_control_flow.md R230 to R235): absolute targets, not checked when
written. -/

namespace Sys2Proof.Machine

/-- Jump: `pc <- imm` (R230). -/
def execJump (f : Fields) (s : State) : Host.Outcome State Fault Refusal :=
  .next (s.setReg pcIx f.operand)

/-- Call: push the advanced `pc`, then `pc <- imm`; a faulting push leaves `pc` as it was (R231). -/
def execCall (f : Fields) (s : State) : Host.Outcome State Fault Refusal :=
  .next (pushReg s pcIx fun s1 => s1.setReg pcIx f.operand)

/-- Return: pop into `pc` (R232). -/
def execRet (_f : Fields) (s : State) : Host.Outcome State Fault Refusal :=
  .next (popReg s pcIx)

/-- BranchEqual: `pc <- imm` iff `Z` is set (R233). -/
def execBranchEqual (f : Fields) (s : State) : Host.Outcome State Fault Refusal :=
  .next (if s.flagZ then s.setReg pcIx f.operand else s)

/-- BranchNotEqual: `pc <- imm` iff `Z` is clear (R234). -/
def execBranchNotEqual (f : Fields) (s : State) : Host.Outcome State Fault Refusal :=
  .next (if s.flagZ then s else s.setReg pcIx f.operand)

end Sys2Proof.Machine
end

