-- ==== Sys2Proof/Machine/LoadStore.lean ====
section
/-! DEFINITION. The load, store, stack and move instructions (44_load_store.md R200 to R211). -/

namespace Sys2Proof.Machine

/-- LoadImmediate: `x[rA] <- imm` (R200). -/
def execLoadImmediate (f : Fields) (s : State) : Host.Outcome State Fault Refusal :=
  .next (s.withReg1 f fun rA => s.setReg rA f.operand)

/-- Load: the doubleword at `x[rB]` (R201). -/
def execLoad (f : Fields) (s : State) : Host.Outcome State Fault Refusal :=
  .next (s.withReg2 f fun rA rB => s.loadWord rA (s.getReg rB))

/-- LoadByte: the byte at `x[rB]`, zero-extended (R202). -/
def execLoadByte (f : Fields) (s : State) : Host.Outcome State Fault Refusal :=
  .next (s.withReg2 f fun rA rB => s.loadByte rA (s.getReg rB))

/-- LoadDirect: the doubleword at `imm` (R203). -/
def execLoadDirect (f : Fields) (s : State) : Host.Outcome State Fault Refusal :=
  .next (s.withReg1 f fun rA => s.loadWord rA f.operand)

/-- LoadDirectByte: the byte at `imm`, zero-extended (R204). -/
def execLoadDirectByte (f : Fields) (s : State) : Host.Outcome State Fault Refusal :=
  .next (s.withReg1 f fun rA => s.loadByte rA f.operand)

/-- Store: `x[rA]` to the doubleword at `x[rB]` (R205). -/
def execStore (f : Fields) (s : State) : Host.Outcome State Fault Refusal :=
  .next (s.withReg2 f fun rA rB => s.storeWord rA (s.getReg rB))

/-- StoreByte: the low byte of `x[rA]` to the byte at `x[rB]` (R206). -/
def execStoreByte (f : Fields) (s : State) : Host.Outcome State Fault Refusal :=
  .next (s.withReg2 f fun rA rB => s.storeByte rA (s.getReg rB))

/-- StoreDirect: `x[rA]` to the doubleword at `imm` (R207). -/
def execStoreDirect (f : Fields) (s : State) : Host.Outcome State Fault Refusal :=
  .next (s.withReg1 f fun rA => s.storeWord rA f.operand)

/-- StoreDirectByte: the low byte of `x[rA]` to the byte at `imm` (R208). -/
def execStoreDirectByte (f : Fields) (s : State) : Host.Outcome State Fault Refusal :=
  .next (s.withReg1 f fun rA => s.storeByte rA f.operand)

/-- Push: decrement `sp` by 4, then store `x[rA]` there (R209). -/
def execPush (f : Fields) (s : State) : Host.Outcome State Fault Refusal :=
  .next (s.withReg1 f fun rA => pushReg s rA id)

/-- Pop: read the doubleword at `sp` into `rA`, then add 4 to `sp` (R210). -/
def execPop (f : Fields) (s : State) : Host.Outcome State Fault Refusal :=
  .next (s.withReg1 f fun rA => popReg s rA)

/-- Move: `x[rA] <- x[rB]` (R211). -/
def execMove (f : Fields) (s : State) : Host.Outcome State Fault Refusal :=
  .next (s.withReg2 f fun rA rB => s.setReg rA (s.getReg rB))

end Sys2Proof.Machine
end

