-- ==== Sys2Proof/Machine/Logic.lean ====
section
/-! DEFINITION. The logic instructions (43_logic.md R180 to R183): bitwise, no flag written. -/

namespace Sys2Proof.Machine

/-- And: `x[rA] <- x[rB] & x[rC]` (R180). -/
def execAnd (f : Fields) (s : State) : Host.Outcome State Fault Refusal :=
  .next (s.binary f fun b c => b &&& c)

/-- Or: `x[rA] <- x[rB] | x[rC]` (R181). -/
def execOr (f : Fields) (s : State) : Host.Outcome State Fault Refusal :=
  .next (s.binary f fun b c => b ||| c)

/-- XOr: `x[rA] <- x[rB] ^ x[rC]` (R182). -/
def execXor (f : Fields) (s : State) : Host.Outcome State Fault Refusal :=
  .next (s.binary f fun b c => b ^^^ c)

/-- Complement: `x[rA] <- ~x[rA]` (R183). -/
def execComplement (f : Fields) (s : State) : Host.Outcome State Fault Refusal :=
  .next (s.unary f fun v => ~~~v)

end Sys2Proof.Machine
end

