-- ==== Sys2Proof/Machine/System.lean ====
section
/-! DEFINITION. The system instructions NOp, Halt and Invalid (41_system.md R140 to R142). Each meaning is the execute
phase of 40_fsm.md R124: `pc` is already advanced and the cycle counted. -/

namespace Sys2Proof.Machine

/-- NOp: no effect (R140). -/
def execNop (_f : Fields) (s : State) : Host.Outcome State Fault Refusal :=
  .next s

/-- Halt: `state <- Halted` (R141). -/
def execHalt (_f : Fields) (s : State) : Host.Outcome State Fault Refusal :=
  .next s.halt

/-- Invalid: raises `InvalidInstructionFault` with the address of the instruction; no register field is
checked (R142). -/
def execInvalid (_f : Fields) (s : State) : Host.Outcome State Fault Refusal :=
  .next (s.raiseExec (.invalidInstructionFault s.instrAddress))

end Sys2Proof.Machine
end

