-- ==== Sys2Proof/Machine/Dispatch.lean ====
section
/-! DEFINITION. `exec`, the execute phase of 40_fsm.md R124: one arm per constructor of `Instr`, each one direct call of
the instruction's meaning. -/

namespace Sys2Proof.Machine

def exec (i : Instr) (s : State) : Host.Outcome State Fault Refusal :=
  match i with
  | .nop f => Sys2Proof.Machine.execNop f s
  | .halt f => Sys2Proof.Machine.execHalt f s
  | .increment f => Sys2Proof.Machine.execIncrement f s
  | .decrement f => Sys2Proof.Machine.execDecrement f s
  | .add f => Sys2Proof.Machine.execAdd f s
  | .subtract f => Sys2Proof.Machine.execSubtract f s
  | .multiply f => Sys2Proof.Machine.execMultiply f s
  | .divide f => Sys2Proof.Machine.execDivide f s
  | .addImmediate f => Sys2Proof.Machine.execAddImmediate f s
  | .subtractImmediate f => Sys2Proof.Machine.execSubtractImmediate f s
  | .and f => Sys2Proof.Machine.execAnd f s
  | .or f => Sys2Proof.Machine.execOr f s
  | .xor f => Sys2Proof.Machine.execXor f s
  | .negate f => Sys2Proof.Machine.execNegate f s
  | .complement f => Sys2Proof.Machine.execComplement f s
  | .loadImmediate f => Sys2Proof.Machine.execLoadImmediate f s
  | .load f => Sys2Proof.Machine.execLoad f s
  | .loadByte f => Sys2Proof.Machine.execLoadByte f s
  | .loadDirect f => Sys2Proof.Machine.execLoadDirect f s
  | .loadDirectByte f => Sys2Proof.Machine.execLoadDirectByte f s
  | .store f => Sys2Proof.Machine.execStore f s
  | .storeByte f => Sys2Proof.Machine.execStoreByte f s
  | .storeDirect f => Sys2Proof.Machine.execStoreDirect f s
  | .storeDirectByte f => Sys2Proof.Machine.execStoreDirectByte f s
  | .push f => Sys2Proof.Machine.execPush f s
  | .pop f => Sys2Proof.Machine.execPop f s
  | .jump f => Sys2Proof.Machine.execJump f s
  | .call f => Sys2Proof.Machine.execCall f s
  | .ret f => Sys2Proof.Machine.execRet f s
  | .branchEqual f => Sys2Proof.Machine.execBranchEqual f s
  | .branchNotEqual f => Sys2Proof.Machine.execBranchNotEqual f s
  | .move f => Sys2Proof.Machine.execMove f s
  | .compare f => Sys2Proof.Machine.execCompare f s
  | .compareImmediate f => Sys2Proof.Machine.execCompareImmediate f s
  | .invalid f => Sys2Proof.Machine.execInvalid f s

end Sys2Proof.Machine
end

