-- ==== Sys2Proof/Machine/Step.lean ====
section
/-! DEFINITION. One step of the fetch-decode-execute engine (40_fsm.md R121 to R126), and the placing of one
instruction where the next fetch reads. -/

namespace Sys2Proof.Machine

/-- One step (R121). Enabled only while `Running`; in the two terminal states no step exists, which the host
sees as a stop (R126). A fetch fault is entered before the advance and the count (R122). -/
def step (s : State) : Host.Outcome State Fault Refusal :=
  match s.run with
  | .halted => .fault .engineHalted
  | .faulted f => .fault (.engineFaulted f)
  | .running =>
    match fetch s s.pc with
    | .error k => .next (s.raise k s.pc)
    | .ok b => exec (decode s.cfg.enc b) s.afterFetch

/-- `s` with the instruction whose word `W` (R90) has the low `nbits` bits of `w`, zeros above, stored in the 8
bytes at `pc`, most significant byte first (R55, R56). Nothing else changes; the next step runs it when the
engine is `Running` and `pc` is an 8-aligned address of Main Memory, as after reset. -/
def State.withFetchWord (s : State) (nbits w : Nat) : State :=
  s.setMem (s.mem.writeList s.pc.toNat (InstrBytes.ofWord (BitVec.ofNat 64 (w % 2 ^ nbits))).toList)

end Sys2Proof.Machine
end

