-- ==== Sys2Proof/Machine/HostOps.lean ====
section
/-! DEFINITION. The host's operations on the block outside a run: `write_all`, `read_all` (20_memory.md R68), the
load of a program and the reset before a run (70_reset_and_hazards.md R330, R331; 40_fsm.md R130), the run with
the host's cap (R128) and the report of its result (R129). No instruction and no step uses them. -/

namespace Sys2Proof.Machine

/-- Why a host operation is refused before the run. -/
inductive HostError where
  /-- the configuration breaks a constraint of the spec (U10) -/
  | badConfiguration
  /-- the program is larger than Main Memory (R331, D29) -/
  | programTooLarge
  /-- the bytes would leave the device's range, or no device claims the first (R68, D29) -/
  | outsideDevice
  /-- the device accepts no access at this offset (R61, R62) -/
  | notAccepted
  /-- the initial contents given are no canonical contents of Main Memory -/
  | badInitialMemory
  deriving DecidableEq, Repr

/-- The device that serves `n` bytes from `a`, all of them (R68). -/
def hostSelect (c : Config) (a : Word) (n : Nat) : Except HostError MappedDevice :=
  match select (devices c) a with
  | .error _ => .error .outsideDevice
  | .ok e => if e.last.toNat + 1 < a.toNat + n then .error .outsideDevice else .ok e

/-- Write bytes in order through the device's byte write (R54, R68). -/
def writeAllTo (e : MappedDevice) : State → Word → List Byte → Except HostError State
  | s, _, [] => .ok s
  | s, a, b :: bs =>
    match deviceWrite s e a b with
    | .error _ => .error .notAccepted
    | .ok s1 => writeAllTo e s1 (a + 1) bs

/-- `write_all(bytes, addr)` (R68). -/
def writeAll (s : State) (bytes : List Byte) (a : Word) : Except HostError State :=
  match hostSelect s.cfg a bytes.length with
  | .error k => .error k
  | .ok e => writeAllTo e s a bytes

/-- Read `n` bytes in order through the device's byte read (R54, R68). -/
def readAllFrom (s : State) (e : MappedDevice) : Word → Nat → Except HostError (List Byte)
  | _, 0 => .ok []
  | a, n + 1 =>
    match deviceRead s e a with
    | .error _ => .error .notAccepted
    | .ok b =>
      match readAllFrom s e (a + 1) n with
      | .error k => .error k
      | .ok bs => .ok (b :: bs)

/-- `read_all(addr, n)` (R68). -/
def readAll (s : State) (a : Word) (n : Nat) : Except HostError (List Byte) :=
  match hostSelect s.cfg a n with
  | .error k => .error k
  | .ok e => readAllFrom s e a n

/-- The state of R36 over a configuration and given Main Memory contents. -/
def State.resetWith (c : Config) (mem : Memory) : State :=
  { cfg := c, regs := resetRegs c, run := .running, cycles := 0, mem := mem, out := [] }

/-- Every cell lies in Main Memory's range (R34). -/
abbrev Memory.inRange (c : Config) (m : Memory) : Prop :=
  ∀ cell ∈ m, c.memStart.toNat ≤ cell.1 ∧ cell.1 < c.memStart.toNat + c.memSize

/-- The host's sequence before a run: configure, reset, load the program at `PROGRAM_BASE` (R330, R331).
`initMem` is the launch parameter of D12: any contents of Main Memory. -/
def State.launch (c : Config) (initMem : Memory) (program : List Byte) : Except HostError State :=
  if ¬ c.Valid then .error .badConfiguration
  else if ¬ (initMem.wf ∧ Memory.inRange c initMem) then .error .badInitialMemory
  else if c.memSize < program.length then .error .programTooLarge
  else writeAll (State.resetWith c initMem) program c.programBase

/-! The run (R125, R128 to R130). -/

/-- Repeat the step while one is enabled, at most `n` times: the host's run row of R130, which the host may
stop early. The state is the same from the first one on in which no step is enabled (R126). -/
def State.runFor : State → Nat → State
  | s, 0 => s
  | s, n + 1 =>
    match step s with
    | .next t => t.runFor n
    | .fault _ => s
    | .refused _ => s

/-- The run of a host that caps the cycle counter: it takes no step once `cap` instructions are counted (R128,
R130; log entry 26). Each step but the last one of a run counts one, so as many steps as the counter has left to the
cap are enough. -/
def State.runCapped (s : State) (cap : Nat) : State := s.runFor (cap - s.cycles)

/-- The uncapped run from `s` ends in `t`: `Halted` or `Faulted` (R129). Where it ends in no state it goes on forever
(R128). -/
def State.EndsIn (s t : State) : Prop := (∃ n, s.runFor n = t) ∧ t.run ≠ .running

/-- The observable result of a run (R129). -/
structure RunResult where
  /-- how the run stands: ended normally (`halted`), ended in error with the fault record (`faulted`), or stopped
  by the host with the engine still `running` (R128) -/
  ending : RunState
  /-- the final register file, `pc` among them -/
  regs : Vector Word 19
  cycles : Nat
  /-- the contents of Main Memory -/
  mem : Memory
  out : List Byte
  deriving DecidableEq, Repr

/-- What the host reads when a run has stopped (R129, R130: the report and console rows). -/
def State.report (s : State) : RunResult :=
  { ending := s.run, regs := s.regs, cycles := s.cycles, mem := s.mem, out := s.out }

/-- The fault record of a run that ended in error (R129, R301). -/
def RunResult.faultRecord (r : RunResult) : Option FaultRecord :=
  match r.ending with
  | .faulted f => some f
  | .halted => none
  | .running => none

/-- Everything the host does with the block (R130): configure, load and reset (`State.launch`), run under a cap, report. -/
def hostRun (c : Config) (initMem : Memory) (program : List Byte) (cap : Nat) : Except HostError RunResult :=
  match State.launch c initMem program with
  | .error k => .error k
  | .ok s => .ok (s.runCapped cap).report

/-- The addresses behind the assembler's reserved labels (R109), for a program of `n` instructions. -/
def programStart (c : Config) : Word := c.programBase

/-- `program_end` (R109). -/
def programEnd (c : Config) (n : Nat) : Word := c.programBase + BitVec.ofNat 32 (8 * n)

/-- `memory_end`: the last address of Main Memory rounded down to a 4-byte boundary (R109). -/
def memoryEnd (c : Config) : Word :=
  BitVec.ofNat 32 (c.memStart.toNat + c.memSize - 1) &&& ~~~3#32

/-- `console` (R109). -/
def consoleLabel (c : Config) : Word := c.consoleBase

end Sys2Proof.Machine
end

