-- ==== Sys2Proof/WellFormed.lean ====
section
/-! DEFINITION. Which instruction records the assembler can produce (30_encoding.md R96): register fields in
0..18, and zeros in the fields the opcode does not use. The machine runs every record (R96). -/

namespace Sys2Proof

/-- The value of a register field; the operand is no register field. -/
def Fields.regByte (f : Fields) : FieldName → Option Byte
  | .reg1 => some f.reg1
  | .reg2 => some f.reg2
  | .reg3 => some f.reg3
  | .operand => none

/-- A register index is in 0..18 (R21, R96). -/
def regByteInRange (b : Byte) : Bool := b.toNat ≤ 18

/-- A well-formed instruction: all three register fields are at most 18 (R96, glossary of 00_scope.md). -/
def Instr.wellFormed (i : Instr) : Bool :=
  regByteInRange i.fields.reg1 && regByteInRange i.fields.reg2 && regByteInRange i.fields.reg3

/-- The value of a field as a number. -/
def Fields.value (f : Fields) : FieldName → Nat
  | .reg1 => f.reg1.toNat
  | .reg2 => f.reg2.toNat
  | .reg3 => f.reg3.toNat
  | .operand => f.operand.toNat

/-- Every field the opcode does not use is 0, as the assembler writes it (R96, D4). -/
def Instr.unusedZero (i : Instr) : Bool :=
  [FieldName.reg1, .reg2, .reg3, .operand].all
    (fun n => i.opcode.fieldsUsed.contains n || i.fields.value n == 0)

/-- What the assembler can emit: well-formed, unused fields zero, and not the sentinel, which has no
mnemonic (R96, R142). -/
def Instr.assembled (i : Instr) : Bool :=
  i.wellFormed && i.unusedZero && i.opcode != .invalid

end Sys2Proof
end

