-- ==== Sys2Proof/Safety.lean ====
section
/-! DEFINITION. The terms that statements about the machine use: the address ranges, what an instruction may
write, what a truthful fault record says, and the invariant every step keeps. -/

namespace Sys2Proof.Machine

/-- The `n` bytes from `a` all lie in Main Memory (R34, R51). -/
abbrev InMainMemory (c : Config) (a n : Nat) : Prop :=
  c.memStart.toNat ≤ a ∧ a + n ≤ c.memStart.toNat + c.memSize

/-- The address lies in the console window (R51). -/
abbrev InConsole (c : Config) (a : Nat) : Prop :=
  c.consoleBase.toNat ≤ a ∧ a < c.consoleBase.toNat + 8

/-- No device claims the address (R52). -/
abbrev Unmapped (c : Config) (a : Word) : Prop :=
  ∀ e ∈ devices c, e.claims a = false

/-- The byte Main Memory holds at an address: the model's read of one byte. -/
def State.byteAt (s : State) (a : Nat) : Byte := s.mem.read a

/-- The register a field names, if it names one (R21, R24). -/
def regOf (b : Byte) : Option RegId := if h : b.toNat < 19 then some ⟨b.toNat, h⟩ else none

/-- An outcome with its next state, if it has one, changed by `g`. -/
def mapNext (g : State → State) :
    Host.Outcome State Fault Refusal → Host.Outcome State Fault Refusal
  | .next t => .next (g t)
  | .fault r => .fault r
  | .refused r => .refused r

/-- The four bytes from `a`, most significant first, as a number (R55). -/
def State.numberAt (s : State) (a : Nat) : Nat :=
  (s.byteAt a).toNat * 2 ^ 24 + (s.byteAt (a + 1)).toNat * 2 ^ 16 + (s.byteAt (a + 2)).toNat * 2 ^ 8 +
    (s.byteAt (a + 3)).toNat

/-- A doubleword read of `a` completes with the number `n`: the four bytes of Main Memory at an aligned address
(R60), or 0 from the console at offset 0 or 4 where `CONSOLE_READ_OTHER` is `zero` (R61, D13). -/
def State.ReadsDoubleword (s : State) (a : Word) (n : Nat) : Prop :=
  (InMainMemory s.cfg a.toNat 1 ∧ a.toNat % 4 = 0 ∧ n = s.numberAt a.toNat) ∨
    (s.cfg.consoleReadOther = .zero ∧ (a = s.cfg.consoleBase ∨ a = s.cfg.consoleBase + 4) ∧ n = 0)

/-- A byte read of `a` completes with the number `n`: the byte of Main Memory (R60), or 0 from the console port, or
0 from its offsets 1 to 7 where `CONSOLE_READ_OTHER` is `zero` (R61, D13). -/
def State.ReadsByte (s : State) (a : Word) (n : Nat) : Prop :=
  (InMainMemory s.cfg a.toNat 1 ∧ n = (s.byteAt a.toNat).toNat) ∨
    (InConsole s.cfg a.toNat ∧ (a = s.cfg.consoleBase ∨ s.cfg.consoleReadOther = .zero) ∧ n = 0)

end Sys2Proof.Machine

namespace Sys2Proof

open Machine

/-- The register fields an instruction uses, in checking order (R97, R124). -/
def Instr.regBytesUsed (i : Instr) : List Byte := i.opcode.fieldsUsed.filterMap i.fields.regByte

/-- The first used register field that holds 19 or more (R24, R124). -/
def Instr.firstBadReg (i : Instr) : Option Byte := i.regBytesUsed.find? (fun b => !regByteInRange b)

/-- The registers an instruction may change: its destination, and those its rule names implicitly. `pc` is
listed only where the rule writes it during execute. -/
def Instr.destinations (i : Instr) : List RegId :=
  let dst := (regOf i.fields.reg1).toList
  match i.opcode with
  | .nop | .halt | .invalid => []
  | .increment | .decrement | .negate | .complement => dst
  | .add | .subtract | .multiply | .divide | .and | .or | .xor => dst
  | .addImmediate | .subtractImmediate | .loadImmediate | .move => dst
  | .load | .loadByte | .loadDirect | .loadDirectByte => dst
  | .store | .storeByte | .storeDirect | .storeDirectByte => []
  | .push => [spIx]
  | .pop => dst ++ [spIx]
  | .jump | .branchEqual | .branchNotEqual => [pcIx]
  | .call => [spIx, pcIx]
  | .ret => [pcIx, spIx]
  | .compare | .compareImmediate => [srIx]

/-- Where an instruction stores and how many bytes: the address its meaning uses, in the state it starts from.
`none` for a form that stores nothing. -/
def Instr.storeTarget (i : Instr) (s : State) : Option (Word × Nat) :=
  let ind := (regOf i.fields.reg2).map s.getReg
  match i.opcode with
  | .store => ind.map fun a => (a, 4)
  | .storeByte => ind.map fun a => (a, 1)
  | .storeDirect => some (i.fields.operand, 4)
  | .storeDirectByte => some (i.fields.operand, 1)
  | .push | .call => some (s.sp - 4, 4)
  | .nop | .halt | .invalid | .increment | .decrement | .negate | .complement | .add | .subtract
  | .multiply | .divide | .and | .or | .xor | .addImmediate | .subtractImmediate | .loadImmediate
  | .move | .load | .loadByte | .loadDirect | .loadDirectByte | .pop | .jump | .branchEqual
  | .branchNotEqual | .ret | .compare | .compareImmediate => none

/-- The faults an instruction may raise in execute, by its opcode (60_exceptions.md R300). `bad` is the first used
register field out of range. -/
def Opcode.MayRaise (o : Opcode) (bad : Option Byte) : FaultCause → Prop
  | .addressFault _ =>
    o ∈ [.load, .loadByte, .loadDirect, .loadDirectByte, .store, .storeByte, .storeDirect, .storeDirectByte,
      .push, .pop, .call, .ret]
  | .alignmentFault _ _ =>
    o ∈ [.load, .loadDirect, .store, .storeDirect, .push, .pop, .call, .ret]
  | .divideByZeroFault _ => o = .divide
  | .invalidInstructionFault _ => o = .invalid
  | .registerIndexFault b => bad = some b

/-- Two field records that agree on the fields listed. -/
def Fields.agreeOn (f g : Fields) (used : List FieldName) : Prop :=
  ∀ n ∈ used, f.value n = g.value n

end Sys2Proof

namespace Sys2Proof.Machine

/-- `t` is `s` but for the registers listed: every other register, every byte of memory, the output, the run
state, the cycle counter and the configuration are as before. -/
def State.SameBut (s t : State) (changed : List RegId) : Prop :=
  t.cfg = s.cfg ∧ t.run = s.run ∧ t.cycles = s.cycles ∧ t.out = s.out ∧
    (∀ a, t.byteAt a = s.byteAt a) ∧ ∀ r, r ∉ changed → t.getReg r = s.getReg r

/-- `t` is `s` but for the registers listed and the `n` bytes of memory from `a`. -/
def State.SameButStore (s t : State) (changed : List RegId) (a n : Nat) : Prop :=
  t.cfg = s.cfg ∧ t.run = s.run ∧ t.cycles = s.cycles ∧ t.out = s.out ∧
    (∀ x, x < a ∨ a + n ≤ x → t.byteAt x = s.byteAt x) ∧ ∀ r, r ∉ changed → t.getReg r = s.getReg r

/-- `t` is `s` but for the registers listed and the byte `b` appended to the output. -/
def State.SameButOutput (s t : State) (changed : List RegId) (b : Byte) : Prop :=
  t.cfg = s.cfg ∧ t.run = s.run ∧ t.cycles = s.cycles ∧ t.out = s.out ++ [b] ∧
    (∀ a, t.byteAt a = s.byteAt a) ∧ ∀ r, r ∉ changed → t.getReg r = s.getReg r

/-- `t` is `s` with the fault `k` entered at the instruction being executed: only the run state differs, but
for the registers listed (R301 to R303). -/
def State.FaultsTo (s t : State) (k : FaultCause) (changed : List RegId) : Prop :=
  t.run = .faulted { cause := k, pcFault := s.pc - 8 } ∧
    t.cfg = s.cfg ∧ t.cycles = s.cycles ∧ t.out = s.out ∧
    (∀ a, t.byteAt a = s.byteAt a) ∧ ∀ r, r ∉ changed → t.getReg r = s.getReg r

/-- What a truthful fault record says of the configuration and of the instruction's address (R300). -/
def FaultCause.Truthful (c : Config) (pcFault : Word) : FaultCause → Prop
  | .addressFault a => ¬ InMainMemory c a.toNat 1
  | .alignmentFault a w => (w = 4 ∨ w = 8) ∧ a.toNat % w ≠ 0 ∧ ¬ Unmapped c a
  | .divideByZeroFault a => a = pcFault
  | .invalidInstructionFault a => a = pcFault
  | .registerIndexFault b => 18 < b.toNat

/-- The invariant of the machine's data: a configuration the spec allows, and Main Memory in its canonical
form with every cell in its range. -/
def State.Inv (s : State) : Prop :=
  s.cfg.Valid ∧ s.mem.wf ∧ Memory.inRange s.cfg s.mem

/-- The fault record, where there is one, is truthful. -/
def State.FaultTruthful (s : State) : Prop :=
  ∀ f, s.run = .faulted f → f.cause.Truthful s.cfg f.pcFault

/-- The same state as the host would see it after `n` more instructions had been counted and `pre` had been
output before: the two pieces of state only the host reads (R33, R35). -/
def State.withHostView (s : State) (n : Nat) (pre : List Byte) : State :=
  { s with cycles := s.cycles + n, out := pre ++ s.out }

end Sys2Proof.Machine
end

