-- ==== Sys2Proof/Certificates/Slice0/Obligations.lean ====
section
/-! DEFINITION. The statements for the provers. `exec` is the execute phase: in the state it is given `pc` is
already advanced, so the instruction's own address is `pc - 8` (10_state.md R25, 40_fsm.md R121). -/

open Sys2Proof Sys2Proof.Machine

/-! Encoding (30_encoding.md). -/

/-- R93: the opcode is the one whose code is byte 0, Invalid where there is none; bytes 1 to 3 are the register
fields unchanged; bytes 4 to 7 are the operand, most significant first; for every opcode. -/
def Obligations.DecodeReadsOpcodeAndFields : Prop :=
  ∀ (enc : Encoding) (b : InstrBytes),
    (decode enc b).fields.reg1 = b.b1 ∧ (decode enc b).fields.reg2 = b.b2 ∧
    (decode enc b).fields.reg3 = b.b3 ∧
    (decode enc b).fields.operand.toNat =
      b.b4.toNat * 2 ^ 24 + b.b5.toNat * 2 ^ 16 + b.b6.toNat * 2 ^ 8 + b.b7.toNat ∧
    (((decode enc b).opcode ≠ .invalid ∧ enc.code (decode enc b).opcode = b.b0) ∨
      ((decode enc b).opcode = .invalid ∧ ∀ o, o ≠ .invalid → enc.code o ≠ b.b0))

/-- Decode of encode is the instruction, for every record of every opcode, well-formed or not, under every
encoding that meets R99 (R95 (a), which the spec derives for raw register bytes). -/
def Obligations.DecodeOfEncodeIsTheInstruction : Prop :=
  ∀ (enc : Encoding) (i : Instr), enc.Valid → decode enc (encode enc i) = i

/-- Encode of decode gives the bytes back exactly when byte 0 is some opcode's code or `INVALID_CODE`; any other
byte 0 becomes `INVALID_CODE`, the rest unchanged (R95 (b), derived by the spec). -/
def Obligations.EncodeOfDecodeKeepsAssignedBytes : Prop :=
  ∀ (enc : Encoding) (b : InstrBytes), enc.Valid →
    (encode enc (decode enc b) = b ↔ ∃ o, enc.code o = b.b0) ∧
    ((∀ o, enc.code o ≠ b.b0) → encode enc (decode enc b) = { b with b0 := enc.invalid })

/-- Two byte strings decode alike exactly when bytes 1 to 7 agree and bytes 0 are equal or both the code of no
opcode but Invalid (R95 (c), derived by the spec). -/
def Obligations.DecodeAlikeExactlyWhen : Prop :=
  ∀ (enc : Encoding) (b c : InstrBytes), enc.Valid →
    (decode enc b = decode enc c ↔
      (b.b1 = c.b1 ∧ b.b2 = c.b2 ∧ b.b3 = c.b3 ∧ b.b4 = c.b4 ∧ b.b5 = c.b5 ∧ b.b6 = c.b6 ∧ b.b7 = c.b7) ∧
      (b.b0 = c.b0 ∨
        (∀ o, o ≠ .invalid → enc.code o ≠ b.b0) ∧ (∀ o, o ≠ .invalid → enc.code o ≠ c.b0)))

/-- Words of 95_test_vectors.md section 2.1 decode, under the default codes, to the instructions they stand
for; the default codes are the spec's choice (log entry 2). -/
def Obligations.WordsOfTheSpecDecode : Prop :=
  decode defaultEncoding ⟨0x12, 0x01, 0x02, 0x03, 0, 0, 0, 0⟩ = .add ⟨1, 2, 3, 0⟩ ∧
  decode defaultEncoding ⟨0x30, 0, 0, 0, 0xDE, 0xAD, 0xBE, 0xEF⟩ = .loadImmediate ⟨0, 0, 0, 0xDEADBEEF⟩ ∧
  decode defaultEncoding ⟨0x60, 0x01, 0x02, 0x03, 0, 0, 0, 0x04⟩ = .invalid ⟨1, 2, 3, 4⟩ ∧
  decode defaultEncoding ⟨0x1B, 0, 0, 0, 0, 0, 0, 0⟩ = .invalid ⟨0, 0, 0, 0⟩ ∧
  decode defaultEncoding ⟨0x10, 0x13, 0, 0, 0, 0, 0, 0⟩ = .increment ⟨0x13, 0, 0, 0⟩ ∧
  decode defaultEncoding ⟨0x50, 0, 0, 0, 0, 0, 0x10, 0x18⟩ = .jump ⟨0, 0, 0, 0x1018⟩

/-! The bus and the devices (20_memory.md). -/

/-- R52, for any list of devices: the last registered of those that claim the address is selected, and where none
does the access faults with that address. (That the last wins is the behaviour the spec keeps, D19.) -/
def Obligations.DispatchTakesTheLastMatch : Prop :=
  ∀ (devs : List MappedDevice) (a : Word),
    (∀ (before after : List MappedDevice) (e : MappedDevice), devs = before ++ e :: after →
      e.claims a = true → (∀ x ∈ after, x.claims a = false) → select devs a = .ok e) ∧
    ((∀ e ∈ devs, e.claims a = false) → select devs a = .error (.addressFault a))

/-- The platform's map under any valid configuration: Main Memory serves exactly
`[MEM_START, MEM_START + MEM_SIZE - 1]`, the console exactly its 8 bytes, and nothing else is served (R51, with
the constraints of D11). -/
def Obligations.PlatformMapServesTwoRanges : Prop :=
  ∀ (c : Config) (a : Word), c.Valid →
    (InMainMemory c a.toNat 1 →
      ∃ e, select (devices c) a = .ok e ∧ e.device = .mainMemory ∧ e.start = c.memStart) ∧
    (InConsole c a.toNat → ∃ e, select (devices c) a = .ok e ∧ e.device = .console ∧ e.start = c.consoleBase) ∧
    (¬ InMainMemory c a.toNat 1 → ¬ InConsole c a.toNat → select (devices c) a = .error (.addressFault a))

/-- An address that no device claims faults every access with that address, misaligned or not: byte and
doubleword reads and writes, and fetch (R69; that dispatch comes before alignment is D18). -/
def Obligations.UnmappedAddressFaultsEveryAccess : Prop :=
  ∀ (s : State) (a v : Word) (b : Byte), Unmapped s.cfg a →
    memReadByte s a = .error (.addressFault a) ∧ memReadWord s a = .error (.addressFault a) ∧
    memWriteByte s a b = .error (.addressFault a) ∧ memWriteWord s a v = .error (.addressFault a) ∧
    fetch s a = .error (.addressFault a)

/-- The contract of Main Memory (R60): a read answers the byte held; a write changes that byte and nothing else of
the state; a doubleword is four bytes, most significant first, read and written; an instruction is the 8 bytes in
address order; the size is `MEM_SIZE`. That the byte of an address is held under the bus-global address is log
entry 5, and that the bytes of a write or a fetch past the top of the address space do not wrap is log entry 23. -/
def Obligations.MainMemoryContract : Prop :=
  ∀ (s : State) (e : MappedDevice) (a v : Word) (b : Byte), e.device = .mainMemory →
    deviceRead s e a = .ok (s.byteAt a.toNat) ∧
    (∃ t, deviceWrite s e a b = .ok t ∧ t.byteAt a.toNat = b ∧ s.SameButStore t [] a.toNat 1) ∧
    (a.toNat + 3 < 2 ^ 32 → ∃ w, deviceReadDoubleword s e a = .ok w ∧ w.toNat = s.numberAt a.toNat) ∧
    (∃ t, deviceWriteDoubleword s e a v = .ok t ∧ t.numberAt a.toNat = v.toNat ∧
      s.SameButStore t [] a.toNat 4) ∧
    (∃ w, deviceReadInstruction s e a = .ok w ∧
      w.toList = (List.range 8).map fun k => s.byteAt (a.toNat + k)) ∧
    deviceSize s.cfg .mainMemory = s.cfg.memSize

/-- Byte and doubleword accesses agree: after a doubleword write of `v` at an aligned address of Main Memory,
byte `k` reads as `v[31-8k : 24-8k]`; after four byte writes the doubleword reads as their concatenation
(R57, derived by the spec). -/
def Obligations.MixedWidthAccessesAgree : Prop :=
  ∀ (s : State) (a v : Word), s.cfg.Valid → InMainMemory s.cfg a.toNat 1 → a.toNat % 4 = 0 →
    (∃ t, memWriteWord s a v = .ok t ∧ ∀ k : Nat, k < 4 → ∃ b,
      memReadByte t (a + BitVec.ofNat 32 k) = .ok b ∧ b.toNat = v.toNat / 2 ^ (24 - 8 * k) % 256) ∧
    (∀ b0 b1 b2 b3 : Byte, ∃ t0 t1 t2 t3 w,
      memWriteByte s a b0 = .ok t0 ∧ memWriteByte t0 (a + 1) b1 = .ok t1 ∧
      memWriteByte t1 (a + 2) b2 = .ok t2 ∧ memWriteByte t2 (a + 3) b3 = .ok t3 ∧
      memReadWord t3 a = .ok w ∧
      w.toNat = b0.toNat * 2 ^ 24 + b1.toNat * 2 ^ 16 + b2.toNat * 2 ^ 8 + b3.toNat)

/-- A misaligned doubleword or fetch at an address some device claims raises `AlignmentFault` with the address
and the width; a byte access never does, whatever it faults with is `AddressFault` (R58). The check on the bus-global
address (D17) and that misalignment wins over the device's end and the device's own fault (D18) are log entry 14; that a
console byte access faults with `AddressFault` (D13, D14) is log entry 13: choices of the spec. -/
def Obligations.MisalignedAccessFaults : Prop :=
  ∀ (s : State) (a v : Word) (b : Byte), ¬ Unmapped s.cfg a →
    (a.toNat % 4 ≠ 0 → memReadWord s a = .error (.alignmentFault a 4) ∧
      memWriteWord s a v = .error (.alignmentFault a 4)) ∧
    (a.toNat % 8 ≠ 0 → fetch s a = .error (.alignmentFault a 8)) ∧
    (∀ k, memReadByte s a = .error k → k = .addressFault a) ∧
    (∀ k, memWriteByte s a b = .error k → k = .addressFault a)

/-- An aligned access whose last byte lies past the end of the device that claims its first raises
`AddressFault` with the first address; under a valid configuration an aligned access to Main Memory never
does: it is answered (R59, D16). -/
def Obligations.AccessPastTheDeviceEndFaults : Prop :=
  (∀ (s : State) (a v : Word) (e : MappedDevice), select (devices s.cfg) a = .ok e →
    (a.toNat % 4 = 0 → e.last.toNat < a.toNat + 3 → memReadWord s a = .error (.addressFault a) ∧
      memWriteWord s a v = .error (.addressFault a)) ∧
    (a.toNat % 8 = 0 → e.last.toNat < a.toNat + 7 → fetch s a = .error (.addressFault a))) ∧
  (∀ (s : State) (a v : Word), s.cfg.Valid → InMainMemory s.cfg a.toNat 1 →
    (a.toNat % 4 = 0 → (∃ w, memReadWord s a = .ok w) ∧ ∃ t, memWriteWord s a v = .ok t) ∧
    (a.toNat % 8 = 0 → ∃ w, fetch s a = .ok w))

/-- Console reads: 0 at the port; at offsets 1 to 7 `CONSOLE_READ_OTHER` decides between `AddressFault` and 0;
a doubleword at offset 0 or 4 is four such reads, so it faults at the first that does, or is 0; a fetch from the
base raises `AddressFault`, from the other addresses `AlignmentFault` (R61, D13; R63, D15, D18). -/
def Obligations.ConsoleReadsAndFetches : Prop :=
  ∀ (s : State), s.cfg.Valid →
    memReadByte s s.cfg.consoleBase = .ok 0 ∧
    (∀ a : Word, InConsole s.cfg a.toNat → a ≠ s.cfg.consoleBase →
      (s.cfg.consoleReadOther = .fault → memReadByte s a = .error (.addressFault a)) ∧
      (s.cfg.consoleReadOther = .zero → memReadByte s a = .ok 0)) ∧
    (s.cfg.consoleReadOther = .fault →
      memReadWord s s.cfg.consoleBase = .error (.addressFault (s.cfg.consoleBase + 1)) ∧
      memReadWord s (s.cfg.consoleBase + 4) = .error (.addressFault (s.cfg.consoleBase + 4))) ∧
    (s.cfg.consoleReadOther = .zero →
      memReadWord s s.cfg.consoleBase = .ok 0 ∧ memReadWord s (s.cfg.consoleBase + 4) = .ok 0) ∧
    (∀ a : Word, InConsole s.cfg a.toNat →
      (a = s.cfg.consoleBase → fetch s a = .error (.addressFault a)) ∧
      (a ≠ s.cfg.consoleBase → fetch s a = .error (.alignmentFault a 8)))

/-- Console writes: a byte at the port is appended to the output and nothing else changes; a doubleword at the
port appends its most significant byte; a byte write at offsets 1 to 7 and a doubleword write at offset 4 raise
`AddressFault` with their address (R62; the fault's kind is D14, log entry 13). -/
def Obligations.ConsoleWritesAppendOneByte : Prop :=
  ∀ (s : State) (v : Word) (b : Byte), s.cfg.Valid →
    (∃ t, memWriteByte s s.cfg.consoleBase b = .ok t ∧ t.out = s.out ++ [b] ∧ t.mem = s.mem ∧
      t.regs = s.regs ∧ t.run = s.run ∧ t.cycles = s.cycles ∧ t.cfg = s.cfg) ∧
    (∃ t c, memWriteWord s s.cfg.consoleBase v = .ok t ∧ t.out = s.out ++ [c] ∧
      c.toNat = v.toNat / 2 ^ 24 ∧ t.mem = s.mem ∧
      t.regs = s.regs ∧ t.run = s.run ∧ t.cycles = s.cycles ∧ t.cfg = s.cfg) ∧
    (∀ a : Word, InConsole s.cfg a.toNat → a ≠ s.cfg.consoleBase →
      memWriteByte s a b = .error (.addressFault a)) ∧
    memWriteWord s (s.cfg.consoleBase + 4) v = .error (.addressFault (s.cfg.consoleBase + 4))

/-- A store to Main Memory is seen by the next fetch of the 8 bytes it lies in, with nothing between them: a
doubleword in its half of them, a byte in its place, the other bytes as before (R75, derived by the spec). -/
def Obligations.FetchSeesTheStoredBytes : Prop :=
  ∀ (s t : State) (a p : Word), s.cfg.Valid → InMainMemory s.cfg a.toNat 1 →
    p.toNat = a.toNat - a.toNat % 8 →
    (∀ v : Word, a.toNat % 4 = 0 → memWriteWord s a v = .ok t →
      ∃ w, fetch t p = .ok w ∧
        (a.toNat % 8 = 0 → (joinBytes w.b0 w.b1 w.b2 w.b3) = v ∧
          (joinBytes w.b4 w.b5 w.b6 w.b7).toNat = s.numberAt (a.toNat + 4)) ∧
        (a.toNat % 8 = 4 → (joinBytes w.b4 w.b5 w.b6 w.b7) = v ∧
          (joinBytes w.b0 w.b1 w.b2 w.b3).toNat = s.numberAt (a.toNat - 4))) ∧
    (∀ b : Byte, memWriteByte s a b = .ok t →
      ∃ w, fetch t p = .ok w ∧ w.toList = (List.range 8).map fun k =>
        if p.toNat + k = a.toNat then b else s.byteAt (p.toNat + k))

/-! The engine (40_fsm.md, 60_exceptions.md). -/

/-- A running step whose fetch is answered runs the decoded instruction in the state with `pc` advanced by 8 and
one more cycle counted, every other register, memory, the output and the run state as they were (R25, R121). -/
def Obligations.StepRunsTheDecodedInstruction : Prop :=
  ∀ (s : State) (b : InstrBytes), s.run = .running → fetch s s.pc = .ok b →
    ∃ u, step s = exec (decode s.cfg.enc b) u ∧ u.pc = s.pc + 8 ∧ u.cycles = s.cycles + 1 ∧
      (∀ r, r ≠ pcIx → u.getReg r = s.getReg r) ∧
      u.run = s.run ∧ u.mem = s.mem ∧ u.out = s.out ∧ u.cfg = s.cfg

/-- A running step whose fetch faults enters that fault at the fetch address, with `pc`, the cycle counter and all
else unchanged (R122, derived by the spec; the record's `pc_fault` is D31). -/
def Obligations.FetchFaultChangesOnlyTheRunState : Prop :=
  ∀ (s : State) (k : FaultCause), s.run = .running → fetch s s.pc = .error k →
    ∃ t, step s = .next t ∧ t.run = .faulted { cause := k, pcFault := s.pc } ∧
      (∀ r, t.getReg r = s.getReg r) ∧ t.cycles = s.cycles ∧ t.mem = s.mem ∧ t.out = s.out ∧ t.cfg = s.cfg

/-- `Halted` and `Faulted` are terminal: no step is enabled in either (R126), which `step` answers with an outcome
`fault` (log entry 7); and in `Running` a step is always enabled, which follows from R121, R91 and R302. -/
def Obligations.NoStepIsEnabledInATerminalState : Prop :=
  ∀ s : State,
    (s.run = .halted → step s = .fault .engineHalted) ∧
    (∀ f, s.run = .faulted f → step s = .fault (.engineFaulted f)) ∧
    (s.run = .running → ∃ t, step s = .next t)

/-- R123: the cycle counter is incremented by 1 by every step that passes the fetch, whatever the instruction
does (Halt, Invalid and faulting ones included), and by no other step. -/
def Obligations.CyclesCountDecodedInstructions : Prop :=
  ∀ s t : State, step s = .next t →
    (∀ b, fetch s s.pc = .ok b → t.cycles = s.cycles + 1) ∧
    (∀ k, fetch s s.pc = .error k → t.cycles = s.cycles)

/-- The run state changes only by Halt, to `Halted`, or by a fault, to `Faulted` with the address of the
instruction; Halt always halts (R125; the record is D31, the state D28). -/
def Obligations.RunStateChangesOnlyByHaltOrFault : Prop :=
  ∀ (i : Instr) (s t : State), exec i s = .next t →
    (t.run = s.run ∨ (i.opcode = .halt ∧ t.run = .halted) ∨
      ∃ k, t.run = .faulted { cause := k, pcFault := s.pc - 8 }) ∧
    (i.opcode = .halt → t.run = .halted)

/-- No instruction is without a next state: for every one of the 35 opcodes, every field value and every state,
`exec` answers `next` (R91, R96, R302). That a fault's entry is a next state, and that `exec`, the execute phase, is total
also on states in which no step is enabled, is log entry 7; in those states `step` does not call it (R126). -/
def Obligations.EveryInstructionHasANextState : Prop :=
  ∀ (i : Instr) (s : State), ∃ t, exec i s = .next t

/-- A used register field of 19 or more raises `RegisterIndexFault` with the value of the first such field, before
any effect; and from a running state no instruction raises it otherwise (R24, R124; the fault is D3, the order of the
fields D18). -/
def Obligations.RegisterFieldsAreCheckedFirst : Prop :=
  ∀ (i : Instr) (s : State) (b : Byte),
    (i.firstBadReg = some b → ∃ t, exec i s = .next t ∧ s.FaultsTo t (.registerIndexFault b) []) ∧
    (s.run = .running → ∀ t p, exec i s = .next t →
      t.run = .faulted { cause := .registerIndexFault b, pcFault := p } → i.firstBadReg = some b)

/-- A field an opcode does not use is ignored: two records of one opcode that agree on the used fields do the
same in every state (R102, D4). -/
def Obligations.UnusedFieldsAreIgnored : Prop :=
  ∀ (o : Opcode) (f g : Fields) (s : State), f.agreeOn g o.fieldsUsed →
    exec (Instr.ofRecord o f) s = exec (Instr.ofRecord o g) s

/-- What only the host reads has no influence on a run: starting with another cycle count and another output
before it, each step does the same to everything else (R33: no instruction reads or writes `cycles`; R35: `out`
is read only by the host). -/
def Obligations.CyclesAndOutputAreReadByTheHostOnly : Prop :=
  ∀ (s : State) (n : Nat) (pre : List Byte),
    step (s.withHostView n pre) = mapNext (fun t => t.withHostView n pre) (step s)

/-- No step changes the configuration: the device list and every other parameter (R50, R8). -/
def Obligations.ConfigurationNeverChanges : Prop :=
  ∀ s t : State, step s = .next t → t.cfg = s.cfg

/-- What a fault in execute leaves: memory, output and cycles as before it, every register as before it but `sp`,
which only a faulting Push or Call has changed, decremented by 4 (R303, D20). -/
def Obligations.FaultLeavesOnlyEarlierEffects : Prop :=
  ∀ (i : Instr) (s t : State) (f : FaultRecord), s.run = .running → exec i s = .next t →
    t.run = .faulted f →
    t.mem = s.mem ∧ t.out = s.out ∧ t.cycles = s.cycles ∧
    (∀ r, r ≠ spIx → t.getReg r = s.getReg r) ∧
    (t.sp = s.sp ∨ (i.opcode = .push ∨ i.opcode = .call) ∧ t.sp = s.sp - 4)

/-- Which instructions can raise which fault in execute: address faults the loads, stores and stack
instructions; alignment faults those of doublewords; divide by zero only Divide; invalid instruction only Invalid;
register index only an instruction with such a field (R300; the fifth kind is D3). -/
def Obligations.FaultKindsByInstruction : Prop :=
  ∀ (i : Instr) (s t : State) (f : FaultRecord), s.run = .running → exec i s = .next t →
    t.run = .faulted f → Opcode.MayRaise i.opcode i.firstBadReg f.cause

/-- Every step keeps the invariant of the data: the configuration stays one the spec allows (R50, R51), Main Memory
stays in its canonical form, and every cell stays in Main Memory's range (R34). The canonical form is the model's own
(log entry 4), as is that a cell is held under its bus-global address (log entry 5). -/
def Obligations.EveryStepKeepsTheInvariant : Prop :=
  ∀ s t : State, s.Inv → step s = .next t → t.Inv

/-- The invariant holds at reset. The configuration there is the spec's example (log entry 2), and that memory lists
nothing, which is its canonical form, is the model's choice (log entry 4). -/
def Obligations.ResetMeetsTheInvariant : Prop := State.reset.Inv

/-- Every fault record is truthful, and every step keeps that: an `AddressFault` never names an address of Main
Memory, an `AlignmentFault` names an address some device claims that is no multiple of the width 4 or 8, the
faults of Divide and Invalid name the instruction, and a `RegisterIndexFault` a value above 18 (R300, R301). That
dispatch comes before the alignment check, so that some device claims the address, is D18 (log entry 14); the fifth fault
is D3 (log entry 8), an access past a device's end D16 and the console's faults D13 to D15 (log entry 13), the record
D31 (log entry 20). -/
def Obligations.FaultRecordsStayTruthful : Prop :=
  ∀ s t : State, s.cfg.Valid → s.FaultTruthful → step s = .next t → t.FaultTruthful

/-- The output only grows, by at most one byte a step, and a step that outputs changes no memory (R35, R62). -/
def Obligations.OutputGrowsByAtMostOneByte : Prop :=
  ∀ s t : State, step s = .next t → t.out = s.out ∨ ∃ b, t.out = s.out ++ [b] ∧ t.mem = s.mem

/-- An instruction changes no register but its destinations, faulting or not: the destination its rule names, `sp`
for the stack instructions, `pc` for control transfers, `sr` for compares. -/
def Obligations.OnlyDestinationsChange : Prop :=
  ∀ (i : Instr) (s t : State) (r : RegId), exec i s = .next t → r ∉ i.destinations →
    t.getReg r = s.getReg r

/-- An instruction changes no byte of memory but those it stores to: all of memory is as before for a form that
stores nothing, and every byte outside the stored ones for a form that stores. -/
def Obligations.OnlyStoredBytesChange : Prop :=
  ∀ (i : Instr) (s t : State), exec i s = .next t →
    (i.storeTarget s = none → ∀ x, t.byteAt x = s.byteAt x) ∧
    (∀ (a : Word) (n : Nat), i.storeTarget s = some (a, n) →
      ∀ x, x < a.toNat ∨ a.toNat + n ≤ x → t.byteAt x = s.byteAt x)

/-- Only the compares change `sr` as a side effect: any other instruction leaves it as it was unless `sr` is its
destination, and `sr` is the destination of no other instruction than one that writes the register its reg1 names,
where reg1 names `sr` (R29; that an explicit write is allowed is D26). -/
def Obligations.OnlyComparesWriteTheFlags : Prop :=
  ∀ (i : Instr) (s t : State), exec i s = .next t →
    (srIx ∉ i.destinations → t.sr = s.sr) ∧
    (srIx ∈ i.destinations → i.opcode ≠ .compare → i.opcode ≠ .compareImmediate →
      regOf i.fields.reg1 = some srIx ∧
      i.opcode ∉ [.nop, .halt, .invalid, .store, .storeByte, .storeDirect, .storeDirectByte, .push, .jump, .call,
        .ret, .branchEqual, .branchNotEqual])

/-! The instructions. Registers are named through `regOf`: a field that holds 19 or more is the case of
RegisterFieldsAreCheckedFirst. -/

/-- NOp has no effect; Halt halts and changes nothing else; Invalid enters `InvalidInstructionFault` with its own
address, whatever its fields hold (R140, R141, R142; the record's `pc_fault` is D31). -/
def Obligations.SystemInstructionResults : Prop :=
  ∀ (f : Fields) (s : State),
    exec (.nop f) s = .next s ∧
    (∃ t, exec (.halt f) s = .next t ∧ t.run = .halted ∧ t.regs = s.regs ∧ t.cycles = s.cycles ∧
      t.mem = s.mem ∧ t.out = s.out ∧ t.cfg = s.cfg) ∧
    (∃ t, exec (.invalid f) s = .next t ∧ s.FaultsTo t (.invalidInstructionFault (s.pc - 8)) [])

/-- Increment, Decrement and Negate, modulo 2^32; only the register changes (R150, R151, R158). -/
def Obligations.IncrementDecrementNegateResults : Prop :=
  ∀ (f : Fields) (s : State) (rA : RegId), regOf f.reg1 = some rA →
    (∃ t, exec (.increment f) s = .next t ∧ s.SameBut t [rA] ∧
      (t.getReg rA).toNat = ((s.getReg rA).toNat + 1) % 2 ^ 32) ∧
    (∃ t, exec (.decrement f) s = .next t ∧ s.SameBut t [rA] ∧
      (t.getReg rA).toNat = ((s.getReg rA).toNat + (2 ^ 32 - 1)) % 2 ^ 32) ∧
    (∃ t, exec (.negate f) s = .next t ∧ s.SameBut t [rA] ∧
      (t.getReg rA).toNat = (2 ^ 32 - (s.getReg rA).toNat) % 2 ^ 32)

/-- Add, Subtract and Multiply, modulo 2^32, the minuend in reg2; both sources are read before the write, the
destination may be a source; only it changes (R152 to R154, R23). -/
def Obligations.AddSubtractMultiplyResults : Prop :=
  ∀ (f : Fields) (s : State) (rA rB rC : RegId),
    regOf f.reg1 = some rA → regOf f.reg2 = some rB → regOf f.reg3 = some rC →
    (∃ t, exec (.add f) s = .next t ∧ s.SameBut t [rA] ∧
      (t.getReg rA).toNat = ((s.getReg rB).toNat + (s.getReg rC).toNat) % 2 ^ 32) ∧
    (∃ t, exec (.subtract f) s = .next t ∧ s.SameBut t [rA] ∧
      (t.getReg rA).toNat = ((s.getReg rB).toNat + (2 ^ 32 - (s.getReg rC).toNat)) % 2 ^ 32) ∧
    (∃ t, exec (.multiply f) s = .next t ∧ s.SameBut t [rA] ∧
      (t.getReg rA).toNat = ((s.getReg rB).toNat * (s.getReg rC).toNat) % 2 ^ 32)

/-- Divide: the unsigned quotient rounded toward zero when the divisor is not 0; else `DivideByZeroFault` with
the address of the Divide, and nothing written (R155; the record's `pc_fault` is D31). -/
def Obligations.DivideResults : Prop :=
  ∀ (f : Fields) (s : State) (rA rB rC : RegId),
    regOf f.reg1 = some rA → regOf f.reg2 = some rB → regOf f.reg3 = some rC →
    (s.getReg rC ≠ 0 → ∃ t, exec (.divide f) s = .next t ∧ s.SameBut t [rA] ∧
      (t.getReg rA).toNat = (s.getReg rB).toNat / (s.getReg rC).toNat) ∧
    (s.getReg rC = 0 → ∃ t, exec (.divide f) s = .next t ∧
      s.FaultsTo t (.divideByZeroFault (s.pc - 8)) [])

/-- And, Or, XOr and Complement act on every one of the 32 bits; only the destination changes (R180 to R183). -/
def Obligations.LogicResults : Prop :=
  ∀ (f : Fields) (s : State) (rA : RegId), regOf f.reg1 = some rA →
    (∀ rB rC : RegId, regOf f.reg2 = some rB → regOf f.reg3 = some rC →
      (∃ t, exec (.and f) s = .next t ∧ s.SameBut t [rA] ∧ ∀ n, n < 32 →
        (t.getReg rA).getLsbD n = ((s.getReg rB).getLsbD n && (s.getReg rC).getLsbD n)) ∧
      (∃ t, exec (.or f) s = .next t ∧ s.SameBut t [rA] ∧ ∀ n, n < 32 →
        (t.getReg rA).getLsbD n = ((s.getReg rB).getLsbD n || (s.getReg rC).getLsbD n)) ∧
      (∃ t, exec (.xor f) s = .next t ∧ s.SameBut t [rA] ∧ ∀ n, n < 32 →
        (t.getReg rA).getLsbD n = ((s.getReg rB).getLsbD n != (s.getReg rC).getLsbD n))) ∧
    (∃ t, exec (.complement f) s = .next t ∧ s.SameBut t [rA] ∧ ∀ n, n < 32 →
      (t.getReg rA).getLsbD n = !(s.getReg rA).getLsbD n)

/-- AddImmediate, SubtractImmediate and LoadImmediate use the full 32-bit operand, the first two modulo 2^32; Move
copies a register, which may be the advanced `pc`. Only the destination changes, which may be `pc`, `sp` or `sr`
like any other (R156, R157, R200, R211, R100, R22; the last is D26). -/
def Obligations.ImmediateAndMoveResults : Prop :=
  ∀ (f : Fields) (s : State) (rA : RegId), regOf f.reg1 = some rA →
    (∀ rB : RegId, regOf f.reg2 = some rB →
      (∃ t, exec (.addImmediate f) s = .next t ∧ s.SameBut t [rA] ∧
        (t.getReg rA).toNat = ((s.getReg rB).toNat + f.operand.toNat) % 2 ^ 32) ∧
      (∃ t, exec (.subtractImmediate f) s = .next t ∧ s.SameBut t [rA] ∧
        (t.getReg rA).toNat = ((s.getReg rB).toNat + (2 ^ 32 - f.operand.toNat)) % 2 ^ 32) ∧
      (∃ t, exec (.move f) s = .next t ∧ s.SameBut t [rA] ∧ t.getReg rA = s.getReg rB)) ∧
    (∃ t, exec (.loadImmediate f) s = .next t ∧ s.SameBut t [rA] ∧ t.getReg rA = f.operand)

/-- Load and LoadDirect of an aligned doubleword of Main Memory, most significant byte at the lowest address, and
of the console's offsets 0 and 4 where `CONSOLE_READ_OTHER` is `zero`, 0; only the destination changes (R201, R203,
R55, R61; the parameter is D13). -/
def Obligations.LoadDoublewordResults : Prop :=
  ∀ (f : Fields) (s : State) (rA : RegId) (a : Word) (n : Nat), s.cfg.Valid → regOf f.reg1 = some rA →
    s.ReadsDoubleword a n →
    (∀ rB : RegId, regOf f.reg2 = some rB → s.getReg rB = a →
      ∃ t, exec (.load f) s = .next t ∧ s.SameBut t [rA] ∧ (t.getReg rA).toNat = n) ∧
    (f.operand = a →
      ∃ t, exec (.loadDirect f) s = .next t ∧ s.SameBut t [rA] ∧ (t.getReg rA).toNat = n)

/-- LoadByte and LoadDirectByte of any byte of Main Memory, aligned or not, zero-extended; of the console port, and
of its offsets 1 to 7 where `CONSOLE_READ_OTHER` is `zero`, 0 (R202, R204, R61; zero extension is D6, the parameter
D13). -/
def Obligations.LoadByteResults : Prop :=
  ∀ (f : Fields) (s : State) (rA : RegId) (a : Word) (n : Nat), s.cfg.Valid → regOf f.reg1 = some rA →
    s.ReadsByte a n →
    (∀ rB : RegId, regOf f.reg2 = some rB → s.getReg rB = a →
      ∃ t, exec (.loadByte f) s = .next t ∧ s.SameBut t [rA] ∧ (t.getReg rA).toNat = n) ∧
    (f.operand = a →
      ∃ t, exec (.loadDirectByte f) s = .next t ∧ s.SameBut t [rA] ∧ (t.getReg rA).toNat = n)

/-- A load, Pop or Return whose access the bus faults enters that fault and writes nothing, the destination and
`sp` included (R201 to R204, R210, R232, R303; what a fault leaves is D20, the record D31, Pop's field D5). -/
def Obligations.FaultingReadsWriteNothing : Prop :=
  ∀ (f : Fields) (s : State) (rA : RegId) (k : FaultCause), regOf f.reg1 = some rA →
    (∀ rB : RegId, regOf f.reg2 = some rB →
      (memReadWord s (s.getReg rB) = .error k → ∃ t, exec (.load f) s = .next t ∧ s.FaultsTo t k []) ∧
      (memReadByte s (s.getReg rB) = .error k → ∃ t, exec (.loadByte f) s = .next t ∧ s.FaultsTo t k [])) ∧
    (memReadWord s f.operand = .error k → ∃ t, exec (.loadDirect f) s = .next t ∧ s.FaultsTo t k []) ∧
    (memReadByte s f.operand = .error k → ∃ t, exec (.loadDirectByte f) s = .next t ∧ s.FaultsTo t k []) ∧
    (memReadWord s s.sp = .error k → ∃ t, exec (.pop f) s = .next t ∧ s.FaultsTo t k []) ∧
    (memReadWord s s.sp = .error k → ∀ g, ∃ t, exec (.ret g) s = .next t ∧ s.FaultsTo t k [])

/-- Store and StoreDirect to an aligned doubleword of Main Memory, most significant byte at the lowest address;
no register and no other byte changes (R205, R207, R55). -/
def Obligations.StoreDoublewordResults : Prop :=
  ∀ (f : Fields) (s : State) (rA : RegId) (a : Word), s.cfg.Valid → regOf f.reg1 = some rA →
    InMainMemory s.cfg a.toNat 1 → a.toNat % 4 = 0 →
    (∀ rB : RegId, regOf f.reg2 = some rB → s.getReg rB = a →
      ∃ t, exec (.store f) s = .next t ∧ s.SameButStore t [] a.toNat 4 ∧
        t.numberAt a.toNat = (s.getReg rA).toNat) ∧
    (f.operand = a →
      ∃ t, exec (.storeDirect f) s = .next t ∧ s.SameButStore t [] a.toNat 4 ∧
        t.numberAt a.toNat = (s.getReg rA).toNat)

/-- StoreByte and StoreDirectByte to any byte of Main Memory store the least significant byte of the register;
no register and no other byte changes (R206, R208; which byte is D7). -/
def Obligations.StoreByteResults : Prop :=
  ∀ (f : Fields) (s : State) (rA : RegId) (a : Word), s.cfg.Valid → regOf f.reg1 = some rA →
    InMainMemory s.cfg a.toNat 1 →
    (∀ rB : RegId, regOf f.reg2 = some rB → s.getReg rB = a →
      ∃ t, exec (.storeByte f) s = .next t ∧ s.SameButStore t [] a.toNat 1 ∧
        (t.byteAt a.toNat).toNat = (s.getReg rA).toNat % 256) ∧
    (f.operand = a →
      ∃ t, exec (.storeDirectByte f) s = .next t ∧ s.SameButStore t [] a.toNat 1 ∧
        (t.byteAt a.toNat).toNat = (s.getReg rA).toNat % 256)

/-- Stores to the console port: the byte forms output the least significant byte of the register, the doubleword
forms the most significant; no register and no memory changes (R205 to R208, R62; the low byte is D7). -/
def Obligations.ConsoleStoresOutputOneByte : Prop :=
  ∀ (f : Fields) (s : State) (rA : RegId), s.cfg.Valid → regOf f.reg1 = some rA →
    ∀ i : Instr,
      ((∃ rB, regOf f.reg2 = some rB ∧ s.getReg rB = s.cfg.consoleBase ∧ (i = .store f ∨ i = .storeByte f)) ∨
        (f.operand = s.cfg.consoleBase ∧ (i = .storeDirect f ∨ i = .storeDirectByte f))) →
      ∃ t b, exec i s = .next t ∧ t.out = s.out ++ [b] ∧ t.mem = s.mem ∧ t.regs = s.regs ∧
        t.run = s.run ∧ t.cycles = s.cycles ∧ t.cfg = s.cfg ∧
        b.toNat = if i.opcode = .storeByte ∨ i.opcode = .storeDirectByte then (s.getReg rA).toNat % 256
          else (s.getReg rA).toNat / 2 ^ 24

/-- A store whose access the bus faults enters that fault and changes nothing else (R205 to R208, R303; what a fault
leaves is D20, the record D31, the byte of the byte forms D7). -/
def Obligations.FaultingStoresWriteNothing : Prop :=
  ∀ (f : Fields) (s : State) (rA : RegId) (k : FaultCause), regOf f.reg1 = some rA →
    (∀ rB : RegId, regOf f.reg2 = some rB →
      (memWriteWord s (s.getReg rB) (s.getReg rA) = .error k →
        ∃ t, exec (.store f) s = .next t ∧ s.FaultsTo t k []) ∧
      (memWriteByte s (s.getReg rB) ((s.getReg rA).setWidth 8) = .error k →
        ∃ t, exec (.storeByte f) s = .next t ∧ s.FaultsTo t k [])) ∧
    (memWriteWord s f.operand (s.getReg rA) = .error k →
      ∃ t, exec (.storeDirect f) s = .next t ∧ s.FaultsTo t k []) ∧
    (memWriteByte s f.operand ((s.getReg rA).setWidth 8) = .error k →
      ∃ t, exec (.storeDirectByte f) s = .next t ∧ s.FaultsTo t k [])

/-- Push: `sp` decremented by 4, then the register stored there, in Main Memory as a doubleword, at the console port
by appending its most significant byte to the output (R62); a pushed `sp` is the decremented one (R209; the field is
D5, the order D10). -/
def Obligations.PushResults : Prop :=
  ∀ (f : Fields) (s : State) (rA : RegId), s.cfg.Valid → regOf f.reg1 = some rA →
    (InMainMemory s.cfg (s.sp - 4).toNat 1 → (s.sp - 4).toNat % 4 = 0 →
      ∃ t, exec (.push f) s = .next t ∧ s.SameButStore t [spIx] (s.sp - 4).toNat 4 ∧ t.sp = s.sp - 4 ∧
        t.numberAt (s.sp - 4).toNat = (if rA = spIx then s.sp - 4 else s.getReg rA).toNat) ∧
    (s.sp - 4 = s.cfg.consoleBase →
      ∃ t b, exec (.push f) s = .next t ∧ s.SameButOutput t [spIx] b ∧ t.sp = s.sp - 4 ∧
        b.toNat = (if rA = spIx then s.sp - 4 else s.getReg rA).toNat / 2 ^ 24)

/-- A Push or Call whose store the bus faults leaves `sp` decremented by 4 and `pc` as it was: unmapped,
misaligned, or the console's offset 4 (R209, R231, R303, R27). The order is D10 and what remains D20; that an unmapped
address reports `AddressFault` even where it is misaligned, and a claimed misaligned one always `AlignmentFault`, is D18
(log entry 14); the kind at the console's offset 4 is D14 (log entry 13); Push's field is D5, the record D31. -/
def Obligations.FaultingPushAndCallLeaveSpDecremented : Prop :=
  ∀ (f : Fields) (s : State) (k : FaultCause),
    ((Unmapped s.cfg (s.sp - 4) ∧ k = .addressFault (s.sp - 4)) ∨
      (¬ Unmapped s.cfg (s.sp - 4) ∧ (s.sp - 4).toNat % 4 ≠ 0 ∧ k = .alignmentFault (s.sp - 4) 4) ∨
      (s.cfg.Valid ∧ s.sp - 4 = s.cfg.consoleBase + 4 ∧ k = .addressFault (s.sp - 4))) →
    (∀ rA : RegId, regOf f.reg1 = some rA →
      ∃ t, exec (.push f) s = .next t ∧ s.FaultsTo t k [spIx] ∧ t.sp = s.sp - 4) ∧
    (∃ t, exec (.call f) s = .next t ∧ s.FaultsTo t k [spIx] ∧ t.sp = s.sp - 4)

/-- Pop: the doubleword at `sp` into the register, then 4 added to `sp`; `pop sp` leaves the doubleword plus 4. The
doubleword is Main Memory's, or 0 from the console where `CONSOLE_READ_OTHER` is `zero` (R210, R61; the field is D5,
the order D10, the parameter D13). -/
def Obligations.PopResults : Prop :=
  ∀ (f : Fields) (s : State) (rA : RegId) (n : Nat), s.cfg.Valid → regOf f.reg1 = some rA →
    s.ReadsDoubleword s.sp n →
    ∃ t, exec (.pop f) s = .next t ∧ s.SameBut t [rA, spIx] ∧
      (rA ≠ spIx → (t.getReg rA).toNat = n ∧ t.sp = s.sp + 4) ∧
      (rA = spIx → t.sp.toNat = (n + 4) % 2 ^ 32)

/-- Push then Pop of a register other than `sp`, both through Main Memory, gives its value back and leaves `sp` as
before the pair; between them stands only the engine's own advance (source section 8, S9; R209, R210). That both take
the register from reg1 is D5, and that `sp` is excepted follows from D10 (log entry 10). -/
def Obligations.PushThenPopRestores : Prop :=
  ∀ (f g : Fields) (s : State) (rA : RegId), s.cfg.Valid → regOf f.reg1 = some rA →
    regOf g.reg1 = some rA → rA ≠ spIx →
    InMainMemory s.cfg (s.sp - 4).toNat 1 → (s.sp - 4).toNat % 4 = 0 →
    ∃ t u, exec (.push f) s = .next t ∧ exec (.pop g) t.afterFetch = .next u ∧
      u.getReg rA = s.getReg rA ∧ u.sp = s.sp ∧
      ∀ r, r ≠ rA → r ≠ pcIx → u.getReg r = s.getReg r

/-- Jump, and the branches on `Z`: the target is the operand, not checked; a branch not taken leaves the advanced
`pc`; nothing else changes (R230, R233, R234). -/
def Obligations.JumpAndBranchResults : Prop :=
  ∀ (f : Fields) (s : State),
    (∃ t, exec (.jump f) s = .next t ∧ s.SameBut t [pcIx] ∧ t.pc = f.operand) ∧
    (∃ t, exec (.branchEqual f) s = .next t ∧ s.SameBut t [pcIx] ∧
      t.pc = if s.sr.getLsbD s.cfg.zBit then f.operand else s.pc) ∧
    (∃ t, exec (.branchNotEqual f) s = .next t ∧ s.SameBut t [pcIx] ∧
      t.pc = if s.sr.getLsbD s.cfg.zBit then s.pc else f.operand)

/-- Call: the advanced `pc` is stored at the decremented `sp`, in Main Memory as a doubleword, at the console port by
appending its most significant byte to the output; then `pc` is the operand (R231, R62). -/
def Obligations.CallResults : Prop :=
  ∀ (f : Fields) (s : State), s.cfg.Valid →
    (InMainMemory s.cfg (s.sp - 4).toNat 1 → (s.sp - 4).toNat % 4 = 0 →
      ∃ t, exec (.call f) s = .next t ∧ s.SameButStore t [spIx, pcIx] (s.sp - 4).toNat 4 ∧
        t.sp = s.sp - 4 ∧ t.pc = f.operand ∧ t.numberAt (s.sp - 4).toNat = s.pc.toNat) ∧
    (s.sp - 4 = s.cfg.consoleBase →
      ∃ t b, exec (.call f) s = .next t ∧ s.SameButOutput t [spIx, pcIx] b ∧
        t.sp = s.sp - 4 ∧ t.pc = f.operand ∧ b.toNat = s.pc.toNat / 2 ^ 24)

/-- Return: `pc` is the doubleword at `sp`, Main Memory's, or 0 from the console where `CONSOLE_READ_OTHER` is
`zero`; then 4 is added to `sp` (R232, R61; the parameter is D13). -/
def Obligations.ReturnResults : Prop :=
  ∀ (f : Fields) (s : State) (n : Nat), s.cfg.Valid → s.ReadsDoubleword s.sp n →
    ∃ t, exec (.ret f) s = .next t ∧ s.SameBut t [pcIx, spIx] ∧ t.pc.toNat = n ∧ t.sp = s.sp + 4

/-- Call followed by Return resumes at the instruction after the Call, provided the code between leaves `sp` and
the stacked word as it found them (source section 8, S10; R231, R232). -/
def Obligations.CallThenReturnResumes : Prop :=
  ∀ (f g : Fields) (s w : State), s.cfg.Valid →
    InMainMemory s.cfg (s.sp - 4).toNat 1 → (s.sp - 4).toNat % 4 = 0 →
    ∃ t, exec (.call f) s = .next t ∧
      (w.cfg = t.cfg → w.sp = t.sp → (∀ k, k < 4 → w.byteAt (t.sp.toNat + k) = t.byteAt (t.sp.toNat + k)) →
        ∃ u, exec (.ret g) w = .next u ∧ u.pc = s.pc ∧ u.sp = s.sp)

/-- Compare and CompareImmediate: Zero iff equal, Carry iff the subtrahend is greater, unsigned, Negative iff bit
31 of the difference is set; every other bit of `sr` 0; nothing else changes (R250 to R253; that the other bits
are cleared is D9). -/
def Obligations.CompareResults : Prop :=
  ∀ (f : Fields) (s : State) (rA : RegId) (v : Word), s.cfg.FlagBitsValid → regOf f.reg1 = some rA →
    ∀ i : Instr,
      ((∃ rB, regOf f.reg2 = some rB ∧ s.getReg rB = v ∧ i = .compare f) ∨
        (f.operand = v ∧ i = .compareImmediate f)) →
      ∃ t, exec i s = .next t ∧ s.SameBut t [srIx] ∧
        (t.sr.getLsbD s.cfg.zBit = true ↔ s.getReg rA = v) ∧
        (t.sr.getLsbD s.cfg.cBit = true ↔ (s.getReg rA).toNat < v.toNat) ∧
        (t.sr.getLsbD s.cfg.nBit = true ↔
          2 ^ 31 ≤ ((s.getReg rA).toNat + (2 ^ 32 - v.toNat)) % 2 ^ 32) ∧
        ∀ n, n ≠ s.cfg.zBit.val → n ≠ s.cfg.nBit.val → n ≠ s.cfg.cBit.val → t.sr.getLsbD n = false

/-! Reset (10_state.md R36, 70_reset_and_hazards.md). -/

/-- A launch is answered exactly for a valid configuration, canonical initial contents of Main Memory, and a
program that fits; it leaves `pc` at the program base, every other register 0, the engine running, no cycle
counted, nothing output, the program's bytes from the program base and the initial contents elsewhere (R36, R330,
R331). Of the spec's decisions: the counter is D21, the empty output D27, the initial contents D12, the host errors D29.
The model's own: the configuration and the canonical contents as arguments (log entries 1 and 4), that any bytes that
fit are loaded, whole 8-byte records or not (log entry 21), and that a bad configuration is refused here (log entry
22). -/
def Obligations.LaunchLeavesTheResetState : Prop :=
  ∀ (c : Config) (initMem : Memory) (program : List Byte),
    ((∃ s, State.launch c initMem program = .ok s) ↔
      c.Valid ∧ initMem.wf ∧ Memory.inRange c initMem ∧ program.length ≤ c.memSize) ∧
    ∀ s, State.launch c initMem program = .ok s →
      s.cfg = c ∧ s.pc = c.programBase ∧ (∀ r, r ≠ pcIx → s.getReg r = 0) ∧ s.run = .running ∧
      s.cycles = 0 ∧ s.out = [] ∧
      (∀ n (h : n < program.length), s.byteAt (c.programBase.toNat + n) = program[n]) ∧
      ∀ x, x < c.programBase.toNat ∨ c.programBase.toNat + program.length ≤ x →
        s.byteAt x = initMem.read x

/-- `State.reset`: `pc` at the program base, every other register 0 with all flags clear, running, no cycle
counted, nothing output (R36, R332; the counter is D21, the output D27). The numbers of the configuration are the spec's
example (log entry 2), and what memory reads as is the model's choice (log entry 4), of which nothing is said here. -/
def Obligations.ResetLeavesTheSpecsValues : Prop :=
  (∀ r, State.reset.getReg r = if r = pcIx then State.reset.cfg.programBase else 0) ∧
  State.reset.run = .running ∧ State.reset.cycles = 0 ∧ State.reset.out = [] ∧
  State.reset.flagZ = false ∧ State.reset.flagN = false ∧ State.reset.flagC = false

/-- The instruction that `withFetchWord` places is the one the next step runs, from a running state of a valid
configuration whose `pc` is an 8-aligned address of Main Memory (R121, R66, R90). How a word is numbered is log entry 3,
that the placing stands for the host's load log entry 6. -/
def Obligations.PlacedWordIsTheNextInstruction : Prop :=
  ∀ (s : State) (w : BitVec 64), s.cfg.Valid → s.run = .running → InMainMemory s.cfg s.pc.toNat 1 →
    s.pc.toNat % 8 = 0 →
    step (s.withFetchWord 64 w.toNat) =
      exec (decode s.cfg.enc (InstrBytes.ofWord w)) (s.withFetchWord 64 w.toNat).afterFetch

/-! The run (40_fsm.md R125 to R130). -/

/-- A run goes on until it halts, faults or is stopped by the host: while the engine is still running every step has
counted one instruction; once it is not, more steps change nothing, so a run ends in one state at most; and a run under
a cap on the cycle counter never counts past the cap, and is still running only where it has reached it (R123, R125,
R126, R128 to R130; `Faulted` as an end is D28, the steps and the cap as functions are log entry 26). -/
def Obligations.RunsStopAtAnEndOrAtTheCap : Prop :=
  ∀ (s : State) (n cap : Nat),
    ((s.runFor n).run = .running → (s.runFor n).cycles = s.cycles + n) ∧
    ((s.runFor n).run ≠ .running → ∀ m, s.runFor (n + m) = s.runFor n) ∧
    (∀ t u, s.EndsIn t → s.EndsIn u → t = u) ∧
    (s.runCapped cap).cycles ≤ max s.cycles cap ∧
    ((s.runCapped cap).run = .running → (s.runCapped cap).cycles = max s.cycles cap)
end

