-- ==== Sys2Proof/Laws/Decode.lean ====
section
/-! SUPPORT. The byte-order helpers, the opcode lookup and the instruction record of Sys2Proof/Decode.lean. -/

namespace Sys2Proof

/-! Byte order (R55, R57). -/

/-- Splitting a doubleword and joining its bytes gives it back. -/
@[simp] theorem joinBytes_wordByte (v : Word) :
    joinBytes (wordByte v 0) (wordByte v 1) (wordByte v 2) (wordByte v 3) = v := by
  apply BitVec.eq_of_getLsbD_eq
  intro i hi
  simp only [joinBytes, wordByte, BitVec.getLsbD_append, BitVec.getLsbD_extractLsb']
  by_cases h1 : i < 8
  · simp [h1]
  by_cases h2 : i < 16
  · have e : 8 + (i - 8) = i := by omega
    simp [h1, show i - 8 < 8 by omega, e]
  by_cases h3 : i < 24
  · have e : 16 + (i - 8 - 8) = i := by omega
    simp [h1, show ¬ i - 8 < 8 by omega, show i - 8 - 8 < 8 by omega, e]
  · have e : 24 + (i - 8 - 8 - 8) = i := by omega
    simp [h1, show ¬ i - 8 < 8 by omega, show ¬ i - 8 - 8 < 8 by omega,
      show i - 8 - 8 - 8 < 8 by omega, e]

/-- A joined doubleword as a number: the first byte is the most significant. -/
theorem joinBytes_toNat (b0 b1 b2 b3 : Byte) :
    (joinBytes b0 b1 b2 b3).toNat =
      b0.toNat * 2 ^ 24 + b1.toNat * 2 ^ 16 + b2.toNat * 2 ^ 8 + b3.toNat := by
  have h1 := b1.isLt
  have h2 := b2.isLt
  have h3 := b3.isLt
  simp only [joinBytes, BitVec.toNat_append]
  rw [← Nat.shiftLeft_add_eq_or_of_lt h1, ← Nat.shiftLeft_add_eq_or_of_lt h2,
    ← Nat.shiftLeft_add_eq_or_of_lt h3]
  simp only [Nat.shiftLeft_eq]
  ring

/-- A byte of a doubleword as a number. -/
theorem wordByte_toNat (v : Word) (k : Nat) : (wordByte v k).toNat = v.toNat / 2 ^ (24 - 8 * k) % 2 ^ 8 := by
  simp [wordByte, BitVec.extractLsb'_toNat, Nat.shiftRight_eq_div_pow]

@[simp] theorem wordByte_joinBytes_0 (b0 b1 b2 b3 : Byte) : wordByte (joinBytes b0 b1 b2 b3) 0 = b0 := by
  apply BitVec.eq_of_toNat_eq
  rw [wordByte_toNat, joinBytes_toNat]
  have := b0.isLt; have := b1.isLt; have := b2.isLt; have := b3.isLt
  omega

@[simp] theorem wordByte_joinBytes_1 (b0 b1 b2 b3 : Byte) : wordByte (joinBytes b0 b1 b2 b3) 1 = b1 := by
  apply BitVec.eq_of_toNat_eq
  rw [wordByte_toNat, joinBytes_toNat]
  have := b0.isLt; have := b1.isLt; have := b2.isLt; have := b3.isLt
  omega

@[simp] theorem wordByte_joinBytes_2 (b0 b1 b2 b3 : Byte) : wordByte (joinBytes b0 b1 b2 b3) 2 = b2 := by
  apply BitVec.eq_of_toNat_eq
  rw [wordByte_toNat, joinBytes_toNat]
  have := b0.isLt; have := b1.isLt; have := b2.isLt; have := b3.isLt
  omega

@[simp] theorem wordByte_joinBytes_3 (b0 b1 b2 b3 : Byte) : wordByte (joinBytes b0 b1 b2 b3) 3 = b3 := by
  apply BitVec.eq_of_toNat_eq
  rw [wordByte_toNat, joinBytes_toNat]
  have := b0.isLt; have := b1.isLt; have := b2.isLt; have := b3.isLt
  omega

/-! The instruction record (R92). -/

@[simp] theorem opcode_ofRecord (o : Opcode) (f : Fields) : (Instr.ofRecord o f).opcode = o := by
  cases o <;> rfl

@[simp] theorem fields_ofRecord (o : Opcode) (f : Fields) : (Instr.ofRecord o f).fields = f := by
  cases o <;> rfl

theorem mem_all (o : Opcode) : o ∈ Opcode.all := by cases o <;> decide

/-! The opcode lookup (R93). -/

/-- The opcode found is Invalid, or its code is the byte looked up. -/
theorem opcodeOf_spec (enc : Encoding) (b : Byte) :
    (opcodeOf enc b ≠ .invalid ∧ enc.code (opcodeOf enc b) = b) ∨
      (opcodeOf enc b = .invalid ∧ ∀ o, o ≠ .invalid → enc.code o ≠ b) := by
  unfold opcodeOf
  split
  · next o h =>
    have := List.find?_some h
    simp only [ne_eq, decide_eq_true_eq] at this
    exact .inl this
  · next h =>
    refine .inr ⟨rfl, fun o ho hb => ?_⟩
    have := List.find?_eq_none.mp h o (mem_all o)
    simp [ho, hb] at this

/-- Under a valid encoding two opcodes with one code are one opcode (R99). -/
theorem code_injective {enc : Encoding} (h : enc.Valid) {o p : Opcode} (e : enc.code o = enc.code p) :
    o = p :=
  List.inj_on_of_nodup_map h.1 (mem_all o) (mem_all p) e

/-- Under a valid encoding the lookup finds the opcode whose code is written. -/
theorem opcodeOf_code {enc : Encoding} (h : enc.Valid) (o : Opcode) : opcodeOf enc (enc.code o) = o := by
  rcases opcodeOf_spec enc (enc.code o) with ⟨_, hc⟩ | ⟨hi, hn⟩
  · exact code_injective h hc
  · by_cases ho : o = .invalid
    · rw [hi, ho]
    · exact absurd rfl (hn o ho)

/-! What the decoder and the encoder put where (R93, R94). -/

@[simp] theorem opcode_decode (enc : Encoding) (b : InstrBytes) :
    (decode enc b).opcode = opcodeOf enc b.b0 := opcode_ofRecord _ _

@[simp] theorem fields_decode (enc : Encoding) (b : InstrBytes) :
    (decode enc b).fields = ⟨b.b1, b.b2, b.b3, joinBytes b.b4 b.b5 b.b6 b.b7⟩ := fields_ofRecord _ _

end Sys2Proof
end

