-- ==== Sys2Proof/Laws/Memory.lean ====
section
/-! SUPPORT. Main Memory as a list of cells: read after write, and the canonical form is kept by every
operation. -/

namespace Sys2Proof.Machine.Memory

/-! Reads. -/

theorem read_erase_same (m : Memory) (a : Nat) : Memory.read (Memory.erase m a) a = unlistedByte := by
  induction m with
  | nil => rfl
  | cons c m ih =>
    by_cases h : c.1 = a
    · simpa [Memory.erase, h] using ih
    · simpa [Memory.erase, h, Memory.read] using ih

theorem read_erase_other (m : Memory) {a x : Nat} (h : x ≠ a) :
    Memory.read (Memory.erase m a) x = Memory.read m x := by
  induction m with
  | nil => rfl
  | cons c m ih =>
    by_cases hc : c.1 = a
    · have hx : c.1 ≠ x := fun e => h (e.symm.trans hc)
      simp only [Memory.read, hx, if_false]
      simpa [Memory.erase, hc] using ih
    · simp only [Memory.erase, ne_eq, hc, not_false_eq_true, decide_true, List.filter_cons_of_pos,
        Memory.read]
      split
      · rfl
      · exact ih

theorem read_insert_same (m : Memory) (a : Nat) (b : Byte) (h : ∀ c ∈ m, c.1 ≠ a) :
    Memory.read (Memory.insert a b m) a = b := by
  induction m with
  | nil => simp [Memory.insert, Memory.read]
  | cons c m ih =>
    have hc : c.1 ≠ a := h c List.mem_cons_self
    by_cases hl : a < c.1
    · simp [Memory.insert, hl, Memory.read]
    · simp [Memory.insert, hl, Memory.read, hc, ih fun d hd => h d (List.mem_cons_of_mem _ hd)]

theorem read_insert_other (m : Memory) (b : Byte) {a x : Nat} (h : x ≠ a) :
    Memory.read (Memory.insert a b m) x = Memory.read m x := by
  induction m with
  | nil => simp [Memory.insert, Memory.read, h.symm]
  | cons c m ih =>
    by_cases hl : a < c.1
    · simp [Memory.insert, hl, Memory.read, h.symm]
    · simp [Memory.insert, hl, Memory.read, ih]

theorem ne_of_mem_erase {m : Memory} {a : Nat} {c : Host.Cell} (h : c ∈ Memory.erase m a) : c.1 ≠ a := by
  simpa using (List.mem_filter.mp h).2

/-- Reading the address just written gives the byte written. -/
@[simp] theorem read_write_same (m : Memory) (a : Nat) (b : Byte) :
    Memory.read (Memory.write m a b) a = b := by
  unfold Memory.write
  split
  · next h => rw [read_erase_same, h]
  · exact read_insert_same _ _ _ fun c hc => ne_of_mem_erase hc

/-- A write leaves every other address alone. -/
theorem read_write_other (m : Memory) (b : Byte) {a x : Nat} (h : x ≠ a) :
    Memory.read (Memory.write m a b) x = Memory.read m x := by
  unfold Memory.write
  split
  · exact read_erase_other m h
  · rw [read_insert_other _ b h, read_erase_other m h]

/-- Every read after one write. -/
theorem read_write (m : Memory) (a x : Nat) (b : Byte) :
    Memory.read (Memory.write m a b) x = if x = a then b else Memory.read m x := by
  split
  · next h => subst h; exact read_write_same m x b
  · next h => exact read_write_other m b h

/-- A run of writes leaves every address outside the run alone. -/
theorem read_writeList_outside (bs : List Byte) (m : Memory) {a x : Nat} (h : x < a ∨ a + bs.length ≤ x) :
    Memory.read (Memory.writeList m a bs) x = Memory.read m x := by
  induction bs generalizing m a with
  | nil => rfl
  | cons b bs ih =>
    simp only [List.length_cons] at h
    rw [Memory.writeList, ih _ (by omega), read_write_other _ _ (by omega)]

/-- A run of writes stores its bytes in order. -/
theorem read_writeList_inside (bs : List Byte) (m : Memory) (a n : Nat) (h : n < bs.length) :
    Memory.read (Memory.writeList m a bs) (a + n) = bs[n] := by
  induction bs generalizing m a n with
  | nil => simp at h
  | cons b bs ih =>
    cases n with
    | zero => rw [Memory.writeList, read_writeList_outside _ _ (by omega)]; simp
    | succ n =>
      rw [Memory.writeList, show a + (n + 1) = a + 1 + n by omega, ih _ _ _ (by simpa using h)]
      simp

/-! The canonical form. -/

theorem wf_nil : Memory.wf [] := ⟨List.Pairwise.nil, by simp⟩

theorem wf_erase {m : Memory} (h : m.wf) (a : Nat) : (Memory.erase m a).wf :=
  ⟨h.1.filter _, fun c hc => h.2 c (List.mem_filter.mp hc).1⟩

theorem mem_insert {m : Memory} {a : Nat} {b : Byte} {c : Host.Cell} :
    c ∈ Memory.insert a b m ↔ c = (a, b) ∨ c ∈ m := by
  induction m with
  | nil => simp [Memory.insert]
  | cons d m ih =>
    by_cases hl : a < d.1
    · simp [Memory.insert, hl]
    · simp only [Memory.insert, hl, if_false, List.mem_cons, ih]
      tauto

theorem wf_insert {m : Memory} (h : m.wf) {a : Nat} {b : Byte} (hb : b ≠ unlistedByte)
    (ha : ∀ c ∈ m, c.1 ≠ a) : (Memory.insert a b m).wf := by
  refine ⟨?_, fun c hc => ?_⟩
  · have hp := h.1
    clear h
    induction m with
    | nil => simp [Memory.insert]
    | cons d m ih =>
      have hd : d.1 ≠ a := ha d List.mem_cons_self
      obtain ⟨hdm, hm⟩ := List.pairwise_cons.mp hp
      by_cases hl : a < d.1
      · simp only [Memory.insert, hl, if_true]
        refine List.pairwise_cons.mpr ⟨fun c hc => ?_, hp⟩
        rcases List.mem_cons.mp hc with rfl | hc
        · exact hl
        · exact lt_trans hl (hdm c hc)
      · simp only [Memory.insert, hl, if_false]
        refine List.pairwise_cons.mpr ⟨fun c hc => ?_, ih (fun c hc => ha c (List.mem_cons_of_mem _ hc)) hm⟩
        rcases mem_insert.mp hc with rfl | hc
        · exact lt_of_le_of_ne (not_lt.mp hl) hd
        · exact hdm c hc
  · rcases mem_insert.mp hc with rfl | hc
    · exact hb
    · exact h.2 c hc

/-- A byte write keeps the canonical form. -/
theorem wf_write {m : Memory} (h : m.wf) (a : Nat) (b : Byte) : (Memory.write m a b).wf := by
  unfold Memory.write
  split
  · exact wf_erase h a
  · next hb => exact wf_insert (wf_erase h a) hb fun c hc => ne_of_mem_erase hc

/-- A run of writes keeps the canonical form. -/
theorem wf_writeList {m : Memory} (h : m.wf) (a : Nat) (bs : List Byte) :
    (Memory.writeList m a bs).wf := by
  induction bs generalizing m a with
  | nil => exact h
  | cons b bs ih => exact ih (wf_write h a b) (a + 1)

/-! Cells stay in Main Memory's range. -/

theorem inRange_write {c : Config} {m : Memory} (h : Memory.inRange c m) {a : Nat} {b : Byte}
    (ha : InMainMemory c a 1) : Memory.inRange c (Memory.write m a b) := by
  intro cell hcell
  unfold Memory.write at hcell
  split at hcell
  · exact h cell (List.mem_filter.mp hcell).1
  · rcases mem_insert.mp hcell with rfl | hc
    · exact ⟨ha.1, by have := ha.2; omega⟩
    · exact h cell (List.mem_filter.mp hc).1

theorem inRange_writeList {c : Config} {m : Memory} (h : Memory.inRange c m) {a : Nat} (bs : List Byte)
    (ha : InMainMemory c a bs.length) : Memory.inRange c (Memory.writeList m a bs) := by
  induction bs generalizing m a with
  | nil => exact h
  | cons b bs ih =>
    obtain ⟨h1, h2⟩ := ha
    simp only [List.length_cons] at h2
    exact ih (inRange_write h ⟨h1, by omega⟩) ⟨by omega, by omega⟩

/-! A canonical memory is determined by what it reads as. -/

theorem read_eq_unlisted {m : Memory} {a : Nat} (h : ∀ c ∈ m, c.1 ≠ a) :
    Memory.read m a = unlistedByte := by
  induction m with
  | nil => rfl
  | cons c m ih =>
    simp [Memory.read, h c List.mem_cons_self, ih fun d hd => h d (List.mem_cons_of_mem _ hd)]

/-- Equal contents are equal data: two canonical memories that read alike everywhere are one list. -/
theorem eq_of_read_eq {m n : Memory} (hm : m.wf) (hn : n.wf)
    (h : ∀ a, Memory.read m a = Memory.read n a) : m = n := by
  induction m generalizing n with
  | nil =>
    cases n with
    | nil => rfl
    | cons d n =>
      have := h d.1
      simp only [Memory.read, if_true] at this
      exact absurd this.symm (hn.2 d List.mem_cons_self)
  | cons c m ih =>
    obtain ⟨hcm, hm1⟩ := List.pairwise_cons.mp hm.1
    have hcb := hm.2 c List.mem_cons_self
    cases n with
    | nil =>
      have := h c.1
      simp only [Memory.read, if_true] at this
      exact absurd this hcb
    | cons d n =>
      obtain ⟨hdn, hn1⟩ := List.pairwise_cons.mp hn.1
      have hdb := hn.2 d List.mem_cons_self
      have hkey : c.1 = d.1 := by
        rcases lt_trichotomy c.1 d.1 with hlt | heq | hgt
        · have := h c.1
          rw [read_eq_unlisted (m := d :: n) (a := c.1)
            (fun e he => by
              rcases List.mem_cons.mp he with rfl | he
              · omega
              · have := hdn e he; omega)] at this
          simp only [Memory.read, if_true] at this
          exact absurd this hcb
        · exact heq
        · have := h d.1
          rw [read_eq_unlisted (m := c :: m) (a := d.1)
            (fun e he => by
              rcases List.mem_cons.mp he with rfl | he
              · omega
              · have := hcm e he; omega)] at this
          simp only [Memory.read, if_true] at this
          exact absurd this.symm hdb
      have hval : c.2 = d.2 := by simpa [Memory.read, hkey] using h c.1
      have htail : m = n := by
        refine ih ⟨hm1, fun e he => hm.2 e (List.mem_cons_of_mem _ he)⟩
          ⟨hn1, fun e he => hn.2 e (List.mem_cons_of_mem _ he)⟩ fun a => ?_
        by_cases ha : a = c.1
        · subst ha
          rw [read_eq_unlisted (fun e he => by have := hcm e he; omega),
            read_eq_unlisted (fun e he => by have := hdn e he; omega)]
        · have := h a
          simpa [Memory.read, Ne.symm ha, hkey ▸ Ne.symm ha] using this
      rw [Prod.ext hkey hval, htail]

end Sys2Proof.Machine.Memory
end

