-- ==== Sys2Proof/Laws/State.lean ====
section
/-! SUPPORT. One lemma per field per update of a state, so that no proof unfolds a record update. -/

namespace Sys2Proof.Machine

variable (s : State) (i j : RegId) (v w : Word) (m : Memory) (b : Byte) (r : RunState)
  (k : FaultCause) (p : Word)

/-! `getReg` after each update. -/

theorem getReg_setReg : (s.setReg i v).getReg j = if j = i then v else s.getReg j := by
  simp only [State.getReg, State.setReg, Vector.get_eq_getElem, Vector.getElem_set, Fin.ext_iff]
  by_cases h : i.val = j.val <;> simp [h, eq_comm]

@[simp] theorem getReg_setReg_same : (s.setReg i v).getReg i = v := by simp [getReg_setReg]

theorem getReg_setReg_other (h : j ≠ i) : (s.setReg i v).getReg j = s.getReg j := by
  simp [getReg_setReg, h]

@[simp] theorem getReg_setMem : (s.setMem m).getReg j = s.getReg j := rfl
@[simp] theorem getReg_emit : (s.emit b).getReg j = s.getReg j := rfl
@[simp] theorem getReg_setRun : (s.setRun r).getReg j = s.getReg j := rfl
@[simp] theorem getReg_countCycle : s.countCycle.getReg j = s.getReg j := rfl
@[simp] theorem getReg_raise : (s.raise k p).getReg j = s.getReg j := rfl
@[simp] theorem getReg_raiseExec : (s.raiseExec k).getReg j = s.getReg j := rfl
@[simp] theorem getReg_halt : s.halt.getReg j = s.getReg j := rfl

/-! `cfg`. -/

@[simp] theorem cfg_setReg : (s.setReg i v).cfg = s.cfg := rfl
@[simp] theorem cfg_setMem : (s.setMem m).cfg = s.cfg := rfl
@[simp] theorem cfg_emit : (s.emit b).cfg = s.cfg := rfl
@[simp] theorem cfg_setRun : (s.setRun r).cfg = s.cfg := rfl
@[simp] theorem cfg_countCycle : s.countCycle.cfg = s.cfg := rfl
@[simp] theorem cfg_raise : (s.raise k p).cfg = s.cfg := rfl
@[simp] theorem cfg_raiseExec : (s.raiseExec k).cfg = s.cfg := rfl
@[simp] theorem cfg_halt : s.halt.cfg = s.cfg := rfl
@[simp] theorem cfg_afterFetch : s.afterFetch.cfg = s.cfg := rfl
@[simp] theorem cfg_setFlags : (s.setFlags v w).cfg = s.cfg := rfl

/-! `run`. -/

@[simp] theorem run_setReg : (s.setReg i v).run = s.run := rfl
@[simp] theorem run_setMem : (s.setMem m).run = s.run := rfl
@[simp] theorem run_emit : (s.emit b).run = s.run := rfl
@[simp] theorem run_setRun : (s.setRun r).run = r := rfl
@[simp] theorem run_countCycle : s.countCycle.run = s.run := rfl
@[simp] theorem run_raise : (s.raise k p).run = .faulted ⟨k, p⟩ := rfl
@[simp] theorem run_raiseExec : (s.raiseExec k).run = .faulted ⟨k, s.instrAddress⟩ := rfl
@[simp] theorem run_halt : s.halt.run = .halted := rfl
@[simp] theorem run_afterFetch : s.afterFetch.run = s.run := rfl
@[simp] theorem run_setFlags : (s.setFlags v w).run = s.run := rfl

/-! `cycles`. -/

@[simp] theorem cycles_setReg : (s.setReg i v).cycles = s.cycles := rfl
@[simp] theorem cycles_setMem : (s.setMem m).cycles = s.cycles := rfl
@[simp] theorem cycles_emit : (s.emit b).cycles = s.cycles := rfl
@[simp] theorem cycles_setRun : (s.setRun r).cycles = s.cycles := rfl
@[simp] theorem cycles_countCycle : s.countCycle.cycles = s.cycles + 1 := rfl
@[simp] theorem cycles_raise : (s.raise k p).cycles = s.cycles := rfl
@[simp] theorem cycles_raiseExec : (s.raiseExec k).cycles = s.cycles := rfl
@[simp] theorem cycles_halt : s.halt.cycles = s.cycles := rfl
@[simp] theorem cycles_afterFetch : s.afterFetch.cycles = s.cycles + 1 := rfl
@[simp] theorem cycles_setFlags : (s.setFlags v w).cycles = s.cycles := rfl

/-! `mem`. -/

@[simp] theorem mem_setReg : (s.setReg i v).mem = s.mem := rfl
@[simp] theorem mem_setMem : (s.setMem m).mem = m := rfl
@[simp] theorem mem_emit : (s.emit b).mem = s.mem := rfl
@[simp] theorem mem_setRun : (s.setRun r).mem = s.mem := rfl
@[simp] theorem mem_countCycle : s.countCycle.mem = s.mem := rfl
@[simp] theorem mem_raise : (s.raise k p).mem = s.mem := rfl
@[simp] theorem mem_raiseExec : (s.raiseExec k).mem = s.mem := rfl
@[simp] theorem mem_halt : s.halt.mem = s.mem := rfl
@[simp] theorem mem_afterFetch : s.afterFetch.mem = s.mem := rfl
@[simp] theorem mem_setFlags : (s.setFlags v w).mem = s.mem := rfl

/-! `out`. -/

@[simp] theorem out_setReg : (s.setReg i v).out = s.out := rfl
@[simp] theorem out_setMem : (s.setMem m).out = s.out := rfl
@[simp] theorem out_emit : (s.emit b).out = s.out ++ [b] := rfl
@[simp] theorem out_setRun : (s.setRun r).out = s.out := rfl
@[simp] theorem out_countCycle : s.countCycle.out = s.out := rfl
@[simp] theorem out_raise : (s.raise k p).out = s.out := rfl
@[simp] theorem out_raiseExec : (s.raiseExec k).out = s.out := rfl
@[simp] theorem out_halt : s.halt.out = s.out := rfl
@[simp] theorem out_afterFetch : s.afterFetch.out = s.out := rfl
@[simp] theorem out_setFlags : (s.setFlags v w).out = s.out := rfl

/-! The named registers and the byte read, after updates that leave them alone. -/

@[simp] theorem pc_setMem : (s.setMem m).pc = s.pc := rfl
@[simp] theorem pc_emit : (s.emit b).pc = s.pc := rfl
@[simp] theorem pc_setRun : (s.setRun r).pc = s.pc := rfl
@[simp] theorem pc_raise : (s.raise k p).pc = s.pc := rfl
@[simp] theorem pc_raiseExec : (s.raiseExec k).pc = s.pc := rfl
@[simp] theorem pc_halt : s.halt.pc = s.pc := rfl
@[simp] theorem sp_setMem : (s.setMem m).sp = s.sp := rfl
@[simp] theorem sp_emit : (s.emit b).sp = s.sp := rfl
@[simp] theorem sp_raiseExec : (s.raiseExec k).sp = s.sp := rfl

@[simp] theorem pc_setReg_pc : (s.setReg pcIx v).pc = v := getReg_setReg_same s pcIx v
@[simp] theorem pc_setReg_sp : (s.setReg spIx v).pc = s.pc := getReg_setReg_other s spIx pcIx v (by decide)
@[simp] theorem sp_setReg_sp : (s.setReg spIx v).sp = v := getReg_setReg_same s spIx v
@[simp] theorem sp_setReg_pc : (s.setReg pcIx v).sp = s.sp := getReg_setReg_other s pcIx spIx v (by decide)

theorem sp_setReg : (s.setReg i v).sp = if i = spIx then v else s.sp := by
  simp only [State.sp, getReg_setReg, eq_comm]

theorem getReg_pcIx : s.getReg pcIx = s.pc := rfl
theorem getReg_spIx : s.getReg spIx = s.sp := rfl
theorem getReg_srIx : s.getReg srIx = s.sr := rfl

@[simp] theorem byteAt_setReg (a : Nat) : (s.setReg i v).byteAt a = s.byteAt a := rfl
@[simp] theorem byteAt_setMem (a : Nat) : (s.setMem m).byteAt a = m.read a := rfl
@[simp] theorem byteAt_emit (a : Nat) : (s.emit b).byteAt a = s.byteAt a := rfl
@[simp] theorem byteAt_raiseExec (a : Nat) : (s.raiseExec k).byteAt a = s.byteAt a := rfl
@[simp] theorem byteAt_halt (a : Nat) : s.halt.byteAt a = s.byteAt a := rfl

@[simp] theorem instrAddress_setReg_sp : (s.setReg spIx v).instrAddress = s.instrAddress := by
  simp [State.instrAddress]

theorem pc_afterFetch : s.afterFetch.pc = s.pc + 8 := pc_setReg_pc s (s.pc + 8)

/-- During execute the instruction's address is where it was fetched (R25). -/
@[simp] theorem instrAddress_afterFetch : s.afterFetch.instrAddress = s.pc := by
  simp [State.instrAddress, pc_afterFetch]

theorem getReg_afterFetch (h : j ≠ pcIx) : s.afterFetch.getReg j = s.getReg j :=
  getReg_setReg_other s pcIx j _ h

/-! Two states with the same fields are the same. -/

theorem State.ext_getReg {s t : State} (hc : t.cfg = s.cfg) (hr : t.run = s.run) (hy : t.cycles = s.cycles)
    (hm : t.mem = s.mem) (ho : t.out = s.out) (hg : ∀ r, t.getReg r = s.getReg r) : t = s := by
  obtain ⟨_, rs, _, _, _, _⟩ := s
  obtain ⟨_, rt, _, _, _, _⟩ := t
  simp only at hc hr hy hm ho
  subst hc hr hy hm ho
  have : rt = rs := Vector.ext fun n hn => hg ⟨n, hn⟩
  rw [this]

/-- The reset state is the host's reset over EX with nothing in memory (R36, R330). -/
theorem reset_eq_resetWith : State.reset = State.resetWith exampleConfig [] := rfl

end Sys2Proof.Machine
end

