-- ==== Sys2Proof/Laws/Ops.lean ====
section
/-! SUPPORT. What the dispatcher, the devices and the access primitives can do, said once: 20_memory.md R50 to
R67, and the fault entry of 60_exceptions.md R302. -/

namespace Sys2Proof.Machine

variable {c : Config} {s t : State} {a v : Word} {b : Byte} {e : MappedDevice} {k : FaultCause}

/-! Dispatch (R52). -/

theorem claims_iff : e.claims a = true ↔ e.start.toNat ≤ a.toNat ∧ a.toNat ≤ e.last.toNat := by
  simp [MappedDevice.claims]

/-- The entry of Main Memory. -/
def memEntry (c : Config) : MappedDevice :=
  { start := c.memStart, last := BitVec.ofNat 32 (c.memStart.toNat + c.memSize - 1), device := .mainMemory }

/-- The entry of the console. -/
def conEntry (c : Config) : MappedDevice :=
  { start := c.consoleBase, last := c.consoleBase + 7, device := .console }

theorem devices_eq (c : Config) : devices c = [memEntry c, conEntry c] := rfl

/-- On the platform's two devices: the console if it claims the address, else Main Memory if it does. -/
theorem select_devices (c : Config) (a : Word) :
    select (devices c) a =
      if (conEntry c).claims a then .ok (conEntry c)
      else if (memEntry c).claims a then .ok (memEntry c) else .error (.addressFault a) := by
  cases hc : (conEntry c).claims a <;> cases hm : (memEntry c).claims a <;>
    simp [select, devices_eq, List.filter, hc, hm]

/-- A dispatch that answers gives one of the platform's two devices, which claims the address. -/
theorem select_ok (h : select (devices c) a = .ok e) :
    e.claims a = true ∧ (e = memEntry c ∨ e = conEntry c) := by
  rw [select_devices] at h
  split at h
  · next hc => injection h with h; subst h; exact ⟨hc, .inr rfl⟩
  · split at h
    · next hm => injection h with h; subst h; exact ⟨hm, .inl rfl⟩
    · cases h

/-- A dispatch that fails reports the address, which no device claims. -/
theorem select_error (h : select (devices c) a = .error k) : k = .addressFault a ∧ Unmapped c a := by
  rw [select_devices] at h
  split at h
  · cases h
  · next hc =>
    split at h
    · cases h
    · next hm =>
      injection h with h
      refine ⟨h.symm, fun e he => ?_⟩
      simp only [devices_eq, List.mem_cons, List.not_mem_nil, or_false] at he
      rcases he with rfl | rfl
      · simpa using hm
      · simpa using hc

theorem memEntry_last (h : c.Valid) : (memEntry c).last.toNat = c.memStart.toNat + c.memSize - 1 := by
  obtain ⟨-, -, h1, h2, h3, h4, h5, h6, h7⟩ := h
  simp only [memEntry, BitVec.toNat_ofNat]
  omega

theorem conEntry_last (h : c.Valid) : (conEntry c).last.toNat = c.consoleBase.toNat + 7 := by
  obtain ⟨-, -, h1, h2, h3, h4, h5, h6, h7⟩ := h
  have h8 : (7 : Word).toNat = 7 := rfl
  simp only [conEntry, BitVec.toNat_add, h8]
  omega

/-- Main Memory claims exactly its range (R51). -/
theorem memEntry_claims (h : c.Valid) : (memEntry c).claims a = true ↔ InMainMemory c a.toNat 1 := by
  rw [claims_iff, memEntry_last h]
  have := h.2.2.2.2.1
  simp only [memEntry, InMainMemory]
  omega

/-- The console claims exactly its window (R51). -/
theorem conEntry_claims (h : c.Valid) : (conEntry c).claims a = true ↔ InConsole c a.toNat := by
  rw [claims_iff, conEntry_last h]
  simp only [conEntry, InConsole]
  omega

theorem not_inConsole_of_inMainMemory (h : c.Valid) {n m : Nat} (hm : InMainMemory c n m) (hp : 0 < m) :
    ¬ InConsole c n := by
  obtain ⟨-, -, h1, h2, h3, h4, h5, h6, h7⟩ := h
  simp only [InMainMemory, InConsole] at *
  omega

/-- Under a valid configuration an address of Main Memory is served by Main Memory. -/
theorem select_mainMemory (h : c.Valid) (ha : InMainMemory c a.toNat 1) :
    select (devices c) a = .ok (memEntry c) := by
  have hc : ¬ (conEntry c).claims a = true := by
    rw [conEntry_claims h]; exact not_inConsole_of_inMainMemory h ha Nat.one_pos
  rw [select_devices, if_neg hc, if_pos ((memEntry_claims h).mpr ha)]

/-- Under a valid configuration an address of the window is served by the console. -/
theorem select_console (h : c.Valid) (ha : InConsole c a.toNat) :
    select (devices c) a = .ok (conEntry c) := by
  rw [select_devices, if_pos ((conEntry_claims h).mpr ha)]

/-- Under a valid configuration an address in neither range is unmapped. -/
theorem select_unmapped (h : Unmapped c a) : select (devices c) a = .error (.addressFault a) := by
  have hm := h (memEntry c) (by simp [devices_eq])
  have hc := h (conEntry c) (by simp [devices_eq])
  simp [select_devices, hm, hc]

theorem unmapped_iff (h : c.Valid) : Unmapped c a ↔ ¬ InMainMemory c a.toNat 1 ∧ ¬ InConsole c a.toNat := by
  rw [← memEntry_claims h, ← conEntry_claims h]
  simp [Unmapped, devices_eq]

/-! Aligned accesses (R58, R59, R67). -/

/-- What the checks of an aligned access can answer. -/
theorem selectAligned_cases (c : Config) (a : Word) (n : Nat) :
    (selectAligned c a n = .error (.addressFault a) ∧ Unmapped c a) ∨
      (selectAligned c a n = .error (.alignmentFault a n) ∧ ¬ Unmapped c a ∧ a.toNat % n ≠ 0) ∨
      (∃ e, select (devices c) a = .ok e ∧ a.toNat % n = 0 ∧ e.last.toNat < a.toNat + (n - 1) ∧
        selectAligned c a n = .error (.addressFault a)) ∨
      (∃ e, select (devices c) a = .ok e ∧ a.toNat % n = 0 ∧ a.toNat + (n - 1) ≤ e.last.toNat ∧
        selectAligned c a n = .ok e) := by
  unfold selectAligned
  cases h : select (devices c) a with
  | error k => obtain ⟨rfl, hu⟩ := select_error h; exact .inl ⟨rfl, hu⟩
  | ok e =>
    have hnu : ¬ Unmapped c a := fun hu => by rw [select_unmapped hu] at h; cases h
    by_cases ha : a.toNat % n = 0
    · by_cases hl : e.last.toNat < a.toNat + (n - 1)
      · exact .inr (.inr (.inl ⟨e, rfl, ha, hl, by simp [ha, hl]⟩))
      · exact .inr (.inr (.inr ⟨e, rfl, ha, by omega, by simp [ha, hl]⟩))
    · exact .inr (.inl ⟨by simp [ha], hnu, ha⟩)

/-- An aligned access whose checks pass. -/
theorem selectAligned_ok {n : Nat} (h : selectAligned c a n = .ok e) :
    select (devices c) a = .ok e ∧ a.toNat % n = 0 ∧ a.toNat + (n - 1) ≤ e.last.toNat := by
  rcases selectAligned_cases c a n with ⟨h', -⟩ | ⟨h', -⟩ | ⟨_, -, -, -, h'⟩ | ⟨e', h1, h2, h3, h'⟩ <;>
    rw [h] at h' <;> cases h'
  exact ⟨h1, h2, h3⟩

/-- An aligned access to Main Memory passes its checks: it never crosses the end (R59). -/
theorem selectAligned_mainMemory (h : c.Valid) {n : Nat} (hn : n = 4 ∨ n = 8)
    (ha : InMainMemory c a.toNat 1) (hal : a.toNat % n = 0) :
    selectAligned c a n = .ok (memEntry c) := by
  have hl := memEntry_last h
  unfold selectAligned
  rw [select_mainMemory h ha]
  obtain ⟨-, -, h1, h2, h3, h4, h5, h6, h7⟩ := h
  have : ¬ (memEntry c).last.toNat < a.toNat + (n - 1) := by
    rw [hl]; obtain ⟨h8, h9⟩ := ha; rcases hn with rfl | rfl <;> omega
  simp [hal, this]

/-- An aligned access to the console window passes its checks. -/
theorem selectAligned_console (h : c.Valid) {n : Nat} (hn : n = 4 ∨ n = 8)
    (ha : InConsole c a.toNat) (hal : a.toNat % n = 0) :
    selectAligned c a n = .ok (conEntry c) := by
  have hl := conEntry_last h
  unfold selectAligned
  rw [select_console h ha]
  obtain ⟨-, -, h1, h2, h3, h4, h5, h6, h7⟩ := h
  have : ¬ (conEntry c).last.toNat < a.toNat + (n - 1) := by
    rw [hl]; obtain ⟨h8, h9⟩ := ha; rcases hn with rfl | rfl <;> omega
  simp [hal, this]

/-- A misaligned access to an address a device claims (R58, R67). -/
theorem selectAligned_misaligned {n : Nat} (hu : ¬ Unmapped c a) (hal : a.toNat % n ≠ 0) :
    selectAligned c a n = .error (.alignmentFault a n) := by
  rcases selectAligned_cases c a n with ⟨-, h⟩ | ⟨h, -⟩ | ⟨_, -, h, -⟩ | ⟨_, -, h, -⟩
  · exact absurd h hu
  · exact h
  · exact absurd h hal
  · exact absurd h hal

/-- An aligned access to an address no device claims (R52, R67). -/
theorem selectAligned_unmapped {n : Nat} (hu : Unmapped c a) :
    selectAligned c a n = .error (.addressFault a) := by
  simp [selectAligned, select_unmapped hu]

/-- Every fault of an aligned access is truthful, under a valid configuration. -/
theorem selectAligned_truthful (h : c.Valid) {n : Nat} (hn : n = 4 ∨ n = 8)
    (he : selectAligned c a n = .error k) (p : Word) : k.Truthful c p := by
  rcases selectAligned_cases c a n with ⟨h', hu⟩ | ⟨h', hu, hal⟩ | ⟨e, h1, h2, h3, h'⟩ | ⟨e, -, -, -, h'⟩ <;>
    rw [he] at h' <;> cases h'
  · exact ((unmapped_iff h).mp hu).1
  · exact ⟨hn, hal, hu⟩
  · intro hm
    have := selectAligned_mainMemory h hn hm h2
    rw [he] at this; cases this

/-! The devices (R60 to R63). -/

@[simp] theorem deviceRead_mem (s : State) (c : Config) (a : Word) :
    deviceRead s (memEntry c) a = .ok (s.byteAt a.toNat) := rfl

@[simp] theorem deviceWrite_mem (s : State) (c : Config) (a : Word) (b : Byte) :
    deviceWrite s (memEntry c) a b = .ok (s.setMem (s.mem.write a.toNat b)) := rfl

@[simp] theorem deviceWriteDoubleword_mem (s : State) (c : Config) (a v : Word) :
    deviceWriteDoubleword s (memEntry c) a v =
      .ok (s.setMem (s.mem.writeList a.toNat [wordByte v 0, wordByte v 1, wordByte v 2, wordByte v 3])) := rfl

@[simp] theorem deviceReadInstruction_mem (s : State) (c : Config) (a : Word) :
    deviceReadInstruction s (memEntry c) a =
      .ok ⟨s.byteAt (a.toNat + 0), s.byteAt (a.toNat + 1), s.byteAt (a.toNat + 2), s.byteAt (a.toNat + 3),
        s.byteAt (a.toNat + 4), s.byteAt (a.toNat + 5), s.byteAt (a.toNat + 6), s.byteAt (a.toNat + 7)⟩ := rfl

/-- The doubleword that starts at an address of Main Memory. -/
def State.wordAt (s : State) (n : Nat) : Word :=
  joinBytes (s.byteAt n) (s.byteAt (n + 1)) (s.byteAt (n + 2)) (s.byteAt (n + 3))

theorem toNat_add_small {n : Nat} (h : a.toNat + n < 2 ^ 32) : (a + BitVec.ofNat 32 n).toNat = a.toNat + n := by
  simp only [BitVec.toNat_add, BitVec.toNat_ofNat]
  omega

theorem deviceReadDoubleword_mem (c : Config) (h : a.toNat + 3 < 2 ^ 32) :
    deviceReadDoubleword s (memEntry c) a = .ok (s.wordAt a.toNat) := by
  have h1 : (a + 1).toNat = a.toNat + 1 := toNat_add_small (n := 1) (by omega)
  have h2 : (a + 2).toNat = a.toNat + 2 := toNat_add_small (n := 2) (by omega)
  have h3 : (a + 3).toNat = a.toNat + 3 := toNat_add_small (n := 3) (by omega)
  simp only [deviceReadDoubleword, deviceRead_mem, h1, h2, h3]
  rfl

theorem conEntry_offset : ((conEntry c).offset a = 0) ↔ a = c.consoleBase := by
  simp only [MappedDevice.offset, conEntry]
  exact sub_eq_zero

/-- What a console byte read can answer (R61). -/
theorem deviceRead_con (s : State) (c : Config) (a : Word) :
    deviceRead s (conEntry c) a =
      if a = c.consoleBase then .ok 0
      else match s.cfg.consoleReadOther with
        | .fault => .error (.addressFault a)
        | .zero => .ok 0 := by
  simp only [deviceRead, conEntry_offset]
  simp only [conEntry] <;> split <;> rfl

/-- What a console byte write does (R62). -/
theorem deviceWrite_con (s : State) (c : Config) (a : Word) (b : Byte) :
    deviceWrite s (conEntry c) a b =
      if a = c.consoleBase then .ok (s.emit b) else .error (.addressFault a) := by
  simp only [deviceWrite, conEntry_offset]
  rfl

theorem deviceWriteDoubleword_con (s : State) (c : Config) (a v : Word) :
    deviceWriteDoubleword s (conEntry c) a v =
      if a = c.consoleBase then .ok (s.emit (wordByte v 0)) else .error (.addressFault a) :=
  deviceWrite_con s c a (wordByte v 0)

@[simp] theorem deviceReadInstruction_con (s : State) (c : Config) (a : Word) :
    deviceReadInstruction s (conEntry c) a = .error (.addressFault a) := rfl

/-! The access primitives over Main Memory, under a valid configuration (R64 to R66). -/

theorem memReadByte_mainMemory (h : s.cfg.Valid) (ha : InMainMemory s.cfg a.toNat 1) :
    memReadByte s a = .ok (s.byteAt a.toNat) := by
  simp [memReadByte, select_mainMemory h ha]

theorem memReadWord_mainMemory (h : s.cfg.Valid) (ha : InMainMemory s.cfg a.toNat 1)
    (hal : a.toNat % 4 = 0) : memReadWord s a = .ok (s.wordAt a.toNat) := by
  rw [memReadWord, selectAligned_mainMemory h (.inl rfl) ha hal]
  refine deviceReadDoubleword_mem _ ?_
  have := a.isLt
  omega

theorem memWriteByte_mainMemory (h : s.cfg.Valid) (ha : InMainMemory s.cfg a.toNat 1) (b : Byte) :
    memWriteByte s a b = .ok (s.setMem (s.mem.write a.toNat b)) := by
  simp [memWriteByte, select_mainMemory h ha]

theorem memWriteWord_mainMemory (h : s.cfg.Valid) (ha : InMainMemory s.cfg a.toNat 1)
    (hal : a.toNat % 4 = 0) (v : Word) :
    memWriteWord s a v =
      .ok (s.setMem (s.mem.writeList a.toNat [wordByte v 0, wordByte v 1, wordByte v 2, wordByte v 3])) := by
  rw [memWriteWord, selectAligned_mainMemory h (.inl rfl) ha hal]
  rfl

theorem fetch_mainMemory (h : s.cfg.Valid) (ha : InMainMemory s.cfg a.toNat 1) (hal : a.toNat % 8 = 0) :
    fetch s a =
      .ok ⟨s.byteAt (a.toNat + 0), s.byteAt (a.toNat + 1), s.byteAt (a.toNat + 2), s.byteAt (a.toNat + 3),
        s.byteAt (a.toNat + 4), s.byteAt (a.toNat + 5), s.byteAt (a.toNat + 6), s.byteAt (a.toNat + 7)⟩ := by
  rw [fetch, selectAligned_mainMemory h (.inr rfl) ha hal]
  rfl

/-! What every write can do. -/

/-- A byte write that answers stored one byte of Main Memory, or output it. -/
theorem memWriteByte_ok (h : memWriteByte s a b = .ok t) :
    (t = s.setMem (s.mem.write a.toNat b) ∧ select (devices s.cfg) a = .ok (memEntry s.cfg)) ∨
      (t = s.emit b ∧ a = s.cfg.consoleBase) := by
  unfold memWriteByte at h
  cases hs : select (devices s.cfg) a with
  | error k => rw [hs] at h; cases h
  | ok e =>
    rw [hs] at h
    rcases (select_ok hs).2 with rfl | rfl
    · simp only [deviceWrite_mem] at h
      injection h with h
      exact .inl ⟨h.symm, rfl⟩
    · simp only [deviceWrite_con] at h
      split at h
      · next hb => injection h with h; exact .inr ⟨h.symm, hb⟩
      · cases h

/-- A doubleword write that answers stored four bytes of Main Memory, or output the first. -/
theorem memWriteWord_ok (h : memWriteWord s a v = .ok t) :
    (t = s.setMem (s.mem.writeList a.toNat [wordByte v 0, wordByte v 1, wordByte v 2, wordByte v 3]) ∧
        selectAligned s.cfg a 4 = .ok (memEntry s.cfg)) ∨
      (t = s.emit (wordByte v 0) ∧ a = s.cfg.consoleBase) := by
  unfold memWriteWord at h
  cases hs : selectAligned s.cfg a 4 with
  | error k => rw [hs] at h; cases h
  | ok e =>
    rw [hs] at h
    rcases (select_ok (selectAligned_ok hs).1).2 with rfl | rfl
    · simp only [deviceWriteDoubleword_mem] at h
      injection h with h
      exact .inl ⟨h.symm, rfl⟩
    · simp only [deviceWriteDoubleword_con] at h
      split at h
      · next hb => injection h with h; exact .inr ⟨h.symm, hb⟩
      · cases h

/-! Whether an access answers, and its fault, depend on the configuration alone. -/

theorem deviceRead_congr {s s' : State} (hc : s'.cfg = s.cfg) (hm : s'.mem = s.mem) (e : MappedDevice)
    (a : Word) : deviceRead s' e a = deviceRead s e a := by
  simp [deviceRead, hc, hm]

theorem memReadByte_congr {s s' : State} (hc : s'.cfg = s.cfg) (hm : s'.mem = s.mem) (a : Word) :
    memReadByte s' a = memReadByte s a := by
  simp [memReadByte, hc, deviceRead_congr hc hm]

theorem memReadWord_congr {s s' : State} (hc : s'.cfg = s.cfg) (hm : s'.mem = s.mem) (a : Word) :
    memReadWord s' a = memReadWord s a := by
  simp [memReadWord, deviceReadDoubleword, hc, deviceRead_congr hc hm]

theorem fetch_congr {s s' : State} (hc : s'.cfg = s.cfg) (hm : s'.mem = s.mem) (a : Word) :
    fetch s' a = fetch s a := by
  simp [fetch, deviceReadInstruction, hc, hm]

/-! Faults of an access. -/

/-- A byte read's fault is an address fault, truthful under a valid configuration. -/
theorem memReadByte_error (h : memReadByte s a = .error k) :
    k = .addressFault a ∧ (s.cfg.Valid → ∀ p, k.Truthful s.cfg p) := by
  unfold memReadByte at h
  cases hs : select (devices s.cfg) a with
  | error k' =>
    rw [hs] at h
    injection h with h
    subst h
    obtain ⟨rfl, hu⟩ := select_error hs
    exact ⟨rfl, fun hv _ => ((unmapped_iff hv).mp hu).1⟩
  | ok e =>
    rw [hs] at h
    obtain ⟨hcl, rfl | rfl⟩ := select_ok hs
    · cases h
    · simp only [deviceRead_con] at h
      split at h
      · cases h
      · split at h
        · injection h with h
          subst h
          exact ⟨rfl, fun hv _ hm =>
            not_inConsole_of_inMainMemory hv hm Nat.one_pos ((conEntry_claims hv).mp hcl)⟩
        · cases h

/-- A byte write's fault is an address fault, truthful under a valid configuration. -/
theorem memWriteByte_error (h : memWriteByte s a b = .error k) :
    k = .addressFault a ∧ (s.cfg.Valid → ∀ p, k.Truthful s.cfg p) := by
  unfold memWriteByte at h
  cases hs : select (devices s.cfg) a with
  | error k' =>
    rw [hs] at h
    injection h with h
    subst h
    obtain ⟨rfl, hu⟩ := select_error hs
    exact ⟨rfl, fun hv _ => ((unmapped_iff hv).mp hu).1⟩
  | ok e =>
    rw [hs] at h
    obtain ⟨hcl, rfl | rfl⟩ := select_ok hs
    · cases h
    · simp only [deviceWrite_con] at h
      split at h
      · cases h
      · injection h with h
        subst h
        exact ⟨rfl, fun hv _ hm =>
          not_inConsole_of_inMainMemory hv hm Nat.one_pos ((conEntry_claims hv).mp hcl)⟩

/-- A fault of the bus: an address fault or an alignment fault. -/
def FaultCause.IsBus : FaultCause → Prop
  | .addressFault _ | .alignmentFault _ _ => True
  | .divideByZeroFault _ | .invalidInstructionFault _ | .registerIndexFault _ => False

theorem selectAligned_error_isBus {n : Nat} (h : selectAligned c a n = .error k) : k.IsBus := by
  rcases selectAligned_cases c a n with ⟨h', -⟩ | ⟨h', -⟩ | ⟨_, -, -, -, h'⟩ | ⟨_, -, -, -, h'⟩ <;>
    rw [h] at h' <;> cases h' <;> trivial

/-- A console doubleword read's fault names an address of the window. -/
theorem deviceReadDoubleword_con_error (hv : c.Valid) (ha : InConsole c a.toNat) (hal : a.toNat % 4 = 0)
    (h : deviceReadDoubleword s (conEntry c) a = .error k) :
    ∃ x, k = .addressFault x ∧ InConsole c x.toNat := by
  obtain ⟨-, -, g1, g2, g3, g4, g5, g6, g7⟩ := hv
  obtain ⟨i1, i2⟩ := ha
  have h1 : (a + 1).toNat = a.toNat + 1 := toNat_add_small (n := 1) (by omega)
  have h2 : (a + 2).toNat = a.toNat + 2 := toNat_add_small (n := 2) (by omega)
  have h3 : (a + 3).toNat = a.toNat + 3 := toNat_add_small (n := 3) (by omega)
  have read : ∀ x k', deviceRead s (conEntry c) x = .error k' → k' = .addressFault x := by
    intro x k' hx
    rw [deviceRead_con] at hx
    split at hx
    · cases hx
    · split at hx
      · injection hx with hx; exact hx.symm
      · cases hx
  simp only [deviceReadDoubleword, bind, Except.bind] at h
  cases r0 : deviceRead s (conEntry c) a with
  | error k0 => simp only [r0] at h; cases h; exact ⟨a, read _ _ r0, by omega, by omega⟩
  | ok b0 =>
    cases r1 : deviceRead s (conEntry c) (a + 1) with
    | error k1 => simp only [r0, r1] at h; cases h; exact ⟨a + 1, read _ _ r1, by omega, by omega⟩
    | ok b1 =>
      cases r2 : deviceRead s (conEntry c) (a + 2) with
      | error k2 => simp only [r0, r1, r2] at h; cases h; exact ⟨a + 2, read _ _ r2, by omega, by omega⟩
      | ok b2 =>
        cases r3 : deviceRead s (conEntry c) (a + 3) with
        | error k3 => simp only [r0, r1, r2, r3] at h; cases h; exact ⟨a + 3, read _ _ r3, by omega, by omega⟩
        | ok b3 => simp only [r0, r1, r2, r3] at h; cases h

/-- Any device's doubleword read faults only with an address fault. -/
theorem deviceReadDoubleword_error_isBus (h : deviceReadDoubleword s e a = .error k) : k.IsBus := by
  have read : ∀ x k', deviceRead s e x = .error k' → k'.IsBus := by
    intro x k' hx
    unfold deviceRead at hx
    split at hx
    · cases hx
    · split at hx
      · cases hx
      · split at hx
        · injection hx with hx; subst hx; trivial
        · cases hx
  simp only [deviceReadDoubleword, bind, Except.bind] at h
  cases r0 : deviceRead s e a with
  | error k0 => simp only [r0] at h; cases h; exact read _ _ r0
  | ok b0 =>
    cases r1 : deviceRead s e (a + 1) with
    | error k1 => simp only [r0, r1] at h; cases h; exact read _ _ r1
    | ok b1 =>
      cases r2 : deviceRead s e (a + 2) with
      | error k2 => simp only [r0, r1, r2] at h; cases h; exact read _ _ r2
      | ok b2 =>
        cases r3 : deviceRead s e (a + 3) with
        | error k3 => simp only [r0, r1, r2, r3] at h; cases h; exact read _ _ r3
        | ok b3 => simp only [r0, r1, r2, r3] at h; cases h

/-- A doubleword read's fault is a bus fault, truthful under a valid configuration. -/
theorem memReadWord_error (h : memReadWord s a = .error k) :
    k.IsBus ∧ (s.cfg.Valid → ∀ p, k.Truthful s.cfg p) := by
  unfold memReadWord at h
  cases hs : selectAligned s.cfg a 4 with
  | error k' =>
    rw [hs] at h
    injection h with h
    subst h
    exact ⟨selectAligned_error_isBus hs, fun hv p => selectAligned_truthful hv (.inl rfl) hs p⟩
  | ok e =>
    rw [hs] at h
    refine ⟨deviceReadDoubleword_error_isBus h, fun hv p => ?_⟩
    obtain ⟨hsel, hal, hle⟩ := selectAligned_ok hs
    obtain ⟨hcl, rfl | rfl⟩ := select_ok hsel
    · have := a.isLt
      simp only [deviceReadDoubleword_mem (s := s) (a := a) s.cfg (by omega)] at h
      cases h
    · obtain ⟨x, rfl, hx⟩ := deviceReadDoubleword_con_error hv ((conEntry_claims hv).mp hcl) hal h
      exact fun hm => not_inConsole_of_inMainMemory hv hm Nat.one_pos hx

/-- A doubleword write's fault is a bus fault, truthful under a valid configuration. -/
theorem memWriteWord_error (h : memWriteWord s a v = .error k) :
    k.IsBus ∧ (s.cfg.Valid → ∀ p, k.Truthful s.cfg p) := by
  unfold memWriteWord at h
  cases hs : selectAligned s.cfg a 4 with
  | error k' =>
    rw [hs] at h
    injection h with h
    subst h
    exact ⟨selectAligned_error_isBus hs, fun hv p => selectAligned_truthful hv (.inl rfl) hs p⟩
  | ok e =>
    rw [hs] at h
    obtain ⟨hcl, rfl | rfl⟩ := select_ok (selectAligned_ok hs).1
    · cases h
    · simp only [deviceWriteDoubleword_con] at h
      split at h
      · cases h
      · injection h with h
        subst h
        exact ⟨trivial, fun hv p hm =>
          not_inConsole_of_inMainMemory hv hm Nat.one_pos ((conEntry_claims hv).mp hcl)⟩

/-- A fetch's fault is a bus fault, truthful under a valid configuration. -/
theorem fetch_error (h : fetch s a = .error k) :
    k.IsBus ∧ (s.cfg.Valid → ∀ p, k.Truthful s.cfg p) := by
  unfold fetch at h
  cases hs : selectAligned s.cfg a 8 with
  | error k' =>
    rw [hs] at h
    injection h with h
    subst h
    exact ⟨selectAligned_error_isBus hs, fun hv p => selectAligned_truthful hv (.inr rfl) hs p⟩
  | ok e =>
    rw [hs] at h
    obtain ⟨hcl, rfl | rfl⟩ := select_ok (selectAligned_ok hs).1
    · cases h
    · simp only [deviceReadInstruction_con] at h
      injection h with h
      subst h
      exact ⟨trivial, fun hv p hm =>
        not_inConsole_of_inMainMemory hv hm Nat.one_pos ((conEntry_claims hv).mp hcl)⟩

/-! Going on or entering a fault (R302). -/

@[simp] theorem orRaise_ok {α : Type} (s : State) (x : α) (go : α → State) : s.orRaise (.ok x) go = go x := rfl

@[simp] theorem orRaise_error {α : Type} (s : State) (k : FaultCause) (go : α → State) :
    s.orRaise (.error k) go = s.raiseExec k := rfl

/-- What an operation that may fault leaves: the fault entered, or what comes after. -/
theorem orRaise_cases {α : Type} (s : State) (r : Except FaultCause α) (go : α → State) :
    (∃ k, r = .error k ∧ s.orRaise r go = s.raiseExec k) ∨ (∃ x, r = .ok x ∧ s.orRaise r go = go x) := by
  cases r with
  | error k => exact .inl ⟨k, rfl, rfl⟩
  | ok x => exact .inr ⟨x, rfl, rfl⟩

/-! The stack (R209, R210). -/

/-- What a push can do: enter a bus fault with `sp` decremented, or go on after the store. -/
theorem pushReg_cases (s : State) (src : RegId) (go : State → State) :
    (∃ k, memWriteWord (s.setReg spIx (s.sp - 4)) (s.sp - 4) ((s.setReg spIx (s.sp - 4)).getReg src) = .error k ∧
        pushReg s src go = (s.setReg spIx (s.sp - 4)).raiseExec k) ∨
      (∃ t, memWriteWord (s.setReg spIx (s.sp - 4)) (s.sp - 4) ((s.setReg spIx (s.sp - 4)).getReg src) = .ok t ∧
        pushReg s src go = go t) := by
  have := orRaise_cases (s.setReg spIx (s.sp - 4))
    (memWriteWord (s.setReg spIx (s.sp - 4)) (s.sp - 4) ((s.setReg spIx (s.sp - 4)).getReg src)) go
  simpa [pushReg] using this

/-- What a pop can do: enter a bus fault with nothing written, or write the destination, then `sp`. -/
theorem popReg_cases (s : State) (dst : RegId) :
    (∃ k, memReadWord s s.sp = .error k ∧ popReg s dst = s.raiseExec k) ∨
      (∃ v, memReadWord s s.sp = .ok v ∧
        popReg s dst = (s.setReg dst v).setReg spIx ((s.setReg dst v).sp + 4)) := by
  rcases orRaise_cases s (memReadWord s s.sp)
    (fun v => (s.setReg dst v).setReg spIx ((s.setReg dst v).sp + 4)) with h | h
  · exact .inl h
  · exact .inr h

end Sys2Proof.Machine
end

