-- ==== Sys2Proof/Laws/Operands.lean ====
section
/-! SUPPORT. What the register-field check and the operand forms can do, said once (10_state.md R24, 40_fsm.md
R124). -/

namespace Sys2Proof.Machine

variable {s : State} {f : Fields} {b : Byte}

/-- The first byte of a list that is no register index. -/
def firstBad (l : List Byte) : Option Byte := l.find? (fun b => !regByteInRange b)

/-- A register byte names a register, or the check faults with its value (R24). -/
theorem regIndex_cases (b : Byte) :
    (∃ r : RegId, regIndex b = .ok r ∧ regOf b = some r ∧ regByteInRange b = true ∧ b.toNat = r.val) ∨
      (regIndex b = .error (.registerIndexFault b) ∧ regOf b = none ∧ regByteInRange b = false) := by
  by_cases h : b.toNat < 19
  · exact .inl ⟨⟨b.toNat, h⟩, by simp [regIndex, h], by simp [regOf, h],
      by simp [regByteInRange]; omega, rfl⟩
  · exact .inr ⟨by simp [regIndex, h], by simp [regOf, h], by simp [regByteInRange]; omega⟩

theorem regIndex_of_regOf {r : RegId} (h : regOf b = some r) : regIndex b = .ok r := by
  rcases regIndex_cases b with ⟨r', h1, h2, -⟩ | ⟨-, h2, -⟩ <;> rw [h] at h2 <;> cases h2
  exact h1

theorem regOf_of_toNat {r : RegId} (h : b.toNat = r.val) : regOf b = some r := by
  have hr := r.isLt
  simp [regOf, h, hr]

/-- What the check of reg1 can do. -/
theorem withReg1_cases (s : State) (f : Fields) (go : RegId → State) :
    (∃ rA, regOf f.reg1 = some rA ∧ firstBad [f.reg1] = none ∧ s.withReg1 f go = go rA) ∨
      (∃ b, firstBad [f.reg1] = some b ∧ s.withReg1 f go = s.raiseExec (.registerIndexFault b)) := by
  rcases regIndex_cases f.reg1 with ⟨rA, h1, h2, h3, -⟩ | ⟨h1, -, h3⟩
  · exact .inl ⟨rA, h2, by simp [firstBad, h3], by simp [State.withReg1, h1]⟩
  · exact .inr ⟨f.reg1, by simp [firstBad, h3], by simp [State.withReg1, h1]⟩

/-- What the check of reg1 and reg2 can do. -/
theorem withReg2_cases (s : State) (f : Fields) (go : RegId → RegId → State) :
    (∃ rA rB, regOf f.reg1 = some rA ∧ regOf f.reg2 = some rB ∧ firstBad [f.reg1, f.reg2] = none ∧
        s.withReg2 f go = go rA rB) ∨
      (∃ b, firstBad [f.reg1, f.reg2] = some b ∧
        s.withReg2 f go = s.raiseExec (.registerIndexFault b)) := by
  rcases regIndex_cases f.reg1 with ⟨rA, a1, a2, a3, -⟩ | ⟨a1, -, a3⟩
  · rcases regIndex_cases f.reg2 with ⟨rB, b1, b2, b3, -⟩ | ⟨b1, -, b3⟩
    · exact .inl ⟨rA, rB, a2, b2, by simp [firstBad, a3, b3], by simp [State.withReg2, a1, b1]⟩
    · exact .inr ⟨f.reg2, by simp [firstBad, a3, b3], by simp [State.withReg2, a1, b1]⟩
  · exact .inr ⟨f.reg1, by simp [firstBad, a3], by simp [State.withReg2, a1]⟩

/-- What the check of all three register fields can do. -/
theorem withReg3_cases (s : State) (f : Fields) (go : RegId → RegId → RegId → State) :
    (∃ rA rB rC, regOf f.reg1 = some rA ∧ regOf f.reg2 = some rB ∧ regOf f.reg3 = some rC ∧
        firstBad [f.reg1, f.reg2, f.reg3] = none ∧ s.withReg3 f go = go rA rB rC) ∨
      (∃ b, firstBad [f.reg1, f.reg2, f.reg3] = some b ∧
        s.withReg3 f go = s.raiseExec (.registerIndexFault b)) := by
  rcases regIndex_cases f.reg1 with ⟨rA, a1, a2, a3, -⟩ | ⟨a1, -, a3⟩
  · rcases regIndex_cases f.reg2 with ⟨rB, b1, b2, b3, -⟩ | ⟨b1, -, b3⟩
    · rcases regIndex_cases f.reg3 with ⟨rC, c1, c2, c3, -⟩ | ⟨c1, -, c3⟩
      · exact .inl ⟨rA, rB, rC, a2, b2, c2, by simp [firstBad, a3, b3, c3],
          by simp [State.withReg3, a1, b1, c1]⟩
      · exact .inr ⟨f.reg3, by simp [firstBad, a3, b3, c3], by simp [State.withReg3, a1, b1, c1]⟩
    · exact .inr ⟨f.reg2, by simp [firstBad, a3, b3], by simp [State.withReg3, a1, b1]⟩
  · exact .inr ⟨f.reg1, by simp [firstBad, a3], by simp [State.withReg3, a1]⟩

/-! With every used field in range the check is passed. -/

theorem withReg1_ok {rA : RegId} (hA : regOf f.reg1 = some rA) (go : RegId → State) :
    s.withReg1 f go = go rA := by
  simp [State.withReg1, regIndex_of_regOf hA]

theorem withReg2_ok {rA rB : RegId} (hA : regOf f.reg1 = some rA) (hB : regOf f.reg2 = some rB)
    (go : RegId → RegId → State) : s.withReg2 f go = go rA rB := by
  simp [State.withReg2, regIndex_of_regOf hA, regIndex_of_regOf hB]

theorem withReg3_ok {rA rB rC : RegId} (hA : regOf f.reg1 = some rA) (hB : regOf f.reg2 = some rB)
    (hC : regOf f.reg3 = some rC) (go : RegId → RegId → RegId → State) :
    s.withReg3 f go = go rA rB rC := by
  simp [State.withReg3, regIndex_of_regOf hA, regIndex_of_regOf hB, regIndex_of_regOf hC]

end Sys2Proof.Machine
end

