-- ==== Sys2Proof/Laws/Flags.lean ====
section
/-! SUPPORT. The bits of the flag word a compare writes (46_compare.md R250). -/

namespace Sys2Proof.Machine

variable {c : Config} {s : State}

/-- A bit of a one-flag word. -/
theorem getLsbD_flagBit (i : Fin 32) (b : Bool) (n : Nat) :
    (flagBit i b).getLsbD n = (b && decide (n = i.val)) := by
  have hi := i.isLt
  cases b
  · simp [flagBit]
  · simp only [flagBit, if_true, BitVec.getLsbD_twoPow, Bool.true_and, decide_eq_true hi]
    exact decide_eq_decide.mpr eq_comm

/-- A bit of the word a compare writes: the flag whose position it is, else 0. -/
theorem getLsbD_compareFlags (c : Config) (m t : Word) (n : Nat) :
    (compareFlags c m t).getLsbD n =
      ((decide (m - t = 0) && decide (n = c.zBit.val)) || ((m - t).getLsbD 31 && decide (n = c.nBit.val)) ||
        (decide (m.toNat < t.toNat) && decide (n = c.cBit.val))) := by
  simp only [compareFlags, BitVec.getLsbD_or, getLsbD_flagBit]

/-- What `setFlags` leaves in `sr`. -/
@[simp] theorem sr_setFlags (s : State) (m t : Word) : (s.setFlags m t).sr = compareFlags s.cfg m t :=
  getReg_setReg_same s srIx _

/-- `setFlags` writes no register but `sr`. -/
theorem getReg_setFlags_other (s : State) (m t : Word) {r : RegId} (h : r ≠ srIx) :
    (s.setFlags m t).getReg r = s.getReg r :=
  getReg_setReg_other s srIx r _ h

end Sys2Proof.Machine
end

