-- ==== Sys2Proof/Laws/Exec.lean ====
section
/-! SUPPORT. What one instruction can do, said once for all of them (`exec_effect`), and what one step can do
(`step_cases`). -/

namespace Sys2Proof.Machine

/-- The states that executing `i` in `s` can leave. -/
inductive Effect (i : Instr) (s : State) : State → Prop where
  /-- only registers among the destinations changed, and no register field was out of range -/
  | regs (t : State) (hc : t.cfg = s.cfg) (hr : t.run = s.run) (hy : t.cycles = s.cycles)
      (hm : t.mem = s.mem) (ho : t.out = s.out) (hg : ∀ r, r ∉ i.destinations → t.getReg r = s.getReg r)
      (hb : i.firstBadReg = none) : Effect i s t
  /-- the engine halted -/
  | halted (h : i.opcode = .halt) : Effect i s s.halt
  /-- a fault was entered with nothing written -/
  | fault (k : FaultCause) (hk : Opcode.MayRaise i.opcode i.firstBadReg k)
      (ht : s.cfg.Valid → k.Truthful s.cfg s.instrAddress) : Effect i s (s.raiseExec k)
  /-- the store of a push faulted, with `sp` decremented -/
  | pushFault (k : FaultCause) (hi : i.opcode = .push ∨ i.opcode = .call)
      (hk : Opcode.MayRaise i.opcode i.firstBadReg k) (hkb : k.IsBus)
      (ht : s.cfg.Valid → k.Truthful s.cfg s.instrAddress) :
      Effect i s ((s.setReg spIx (s.sp - 4)).raiseExec k)
  /-- bytes were stored in Main Memory, in the range of the store's target -/
  | stored (t : State) (a : Word) (bs : List Byte) (hst : i.storeTarget s = some (a, bs.length))
      (hsel : select (devices s.cfg) a = .ok (memEntry s.cfg))
      (hal : bs.length = 1 ∨ bs.length = 4 ∧ a.toNat % 4 = 0)
      (hc : t.cfg = s.cfg) (hr : t.run = s.run) (hy : t.cycles = s.cycles)
      (hm : t.mem = s.mem.writeList a.toNat bs) (ho : t.out = s.out)
      (hg : ∀ r, r ∉ i.destinations → t.getReg r = s.getReg r)
      (hb : i.firstBadReg = none) : Effect i s t
  /-- one byte was output -/
  | emitted (t : State) (b : Byte) (n : Nat) (hst : i.storeTarget s = some (s.cfg.consoleBase, n))
      (hc : t.cfg = s.cfg) (hr : t.run = s.run) (hy : t.cycles = s.cycles) (hm : t.mem = s.mem)
      (ho : t.out = s.out ++ [b]) (hg : ∀ r, r ∉ i.destinations → t.getReg r = s.getReg r)
      (hb : i.firstBadReg = none) : Effect i s t

variable {i : Instr} {s t : State} {f : Fields}

/-- A write of one listed destination is an effect on registers. -/
theorem Effect.setReg {r : RegId} {v : Word} (hr : r ∈ i.destinations) (hb : i.firstBadReg = none) :
    Effect i s (s.setReg r v) :=
  .regs _ rfl rfl rfl rfl rfl
    (fun j hj => getReg_setReg_other s r j v fun e => hj (e ▸ hr)) hb

/-- A register-field fault. -/
theorem Effect.badReg {b : Byte} (h : i.firstBadReg = some b) :
    Effect i s (s.raiseExec (.registerIndexFault b)) := by
  refine .fault _ h fun _ => ?_
  have := List.find?_some h
  simp only [regByteInRange, Bool.not_eq_true', decide_eq_false_iff_not, not_le] at this
  exact this

theorem unary_effect (hi : i.firstBadReg = firstBad [f.reg1]) (hd : i.destinations = (regOf f.reg1).toList)
    (op : Word → Word) : Effect i s (s.unary f op) := by
  unfold State.unary
  rcases withReg1_cases s f fun rA => s.setReg rA (op (s.getReg rA)) with ⟨rA, hA, hb, h⟩ | ⟨b, hb, h⟩ <;> rw [h]
  · exact .setReg (by rw [hd, hA]; simp) (hi.trans hb)
  · exact .badReg (hi.trans hb)

theorem binary_effect (hi : i.firstBadReg = firstBad [f.reg1, f.reg2, f.reg3])
    (hd : i.destinations = (regOf f.reg1).toList) (op : Word → Word → Word) : Effect i s (s.binary f op) := by
  unfold State.binary
  rcases withReg3_cases s f fun rA rB rC => s.setReg rA (op (s.getReg rB) (s.getReg rC)) with
    ⟨rA, rB, rC, hA, -, -, hb, h⟩ | ⟨b, hb, h⟩ <;> rw [h]
  · exact .setReg (by rw [hd, hA]; simp) (hi.trans hb)
  · exact .badReg (hi.trans hb)

theorem binaryImm_effect (hi : i.firstBadReg = firstBad [f.reg1, f.reg2])
    (hd : i.destinations = (regOf f.reg1).toList) (op : Word → Word → Word) :
    Effect i s (s.binaryImm f op) := by
  unfold State.binaryImm
  rcases withReg2_cases s f fun rA rB => s.setReg rA (op (s.getReg rB) f.operand) with
    ⟨rA, rB, hA, -, hb, h⟩ | ⟨b, hb, h⟩ <;> rw [h]
  · exact .setReg (by rw [hd, hA]; simp) (hi.trans hb)
  · exact .badReg (hi.trans hb)

theorem divide_effect (f : Fields) (s : State) :
    ∃ t, execDivide f s = .next t ∧ Effect (.divide f) s t := by
  refine ⟨_, rfl, ?_⟩
  rcases withReg3_cases s f fun rA rB rC =>
    if s.getReg rC = 0 then s.raiseExec (.divideByZeroFault s.instrAddress)
    else s.setReg rA (s.getReg rB / s.getReg rC) with ⟨rA, rB, rC, hA, -, -, hb, h⟩ | ⟨b, hb, h⟩ <;> rw [h]
  · split
    · exact .fault _ rfl fun _ => rfl
    · exact .setReg (by simp [Instr.destinations, Instr.opcode, Instr.fields, hA]) hb
  · exact .badReg hb

theorem mayRaise_bus {o : Opcode} {bad : Option Byte} {k : FaultCause} (hk : k.IsBus)
    (ho : o ∈ [Opcode.load, .loadDirect, .store, .storeDirect, .push, .pop, .call, .ret]) :
    Opcode.MayRaise o bad k := by
  cases k with
  | addressFault a => simp only [Opcode.MayRaise, List.mem_cons, List.not_mem_nil, or_false] at *; tauto
  | alignmentFault a w => exact ho
  | divideByZeroFault a => cases hk
  | invalidInstructionFault a => cases hk
  | registerIndexFault b => cases hk

theorem loadWord_effect {rA : RegId} (hd : rA ∈ i.destinations) (hb : i.firstBadReg = none)
    (ho : i.opcode ∈ [Opcode.load, .loadDirect, .store, .storeDirect, .push, .pop, .call, .ret]) (a : Word) :
    Effect i s (s.loadWord rA a) := by
  rcases orRaise_cases s (memReadWord s a) fun v => s.setReg rA v with ⟨k, hk, h⟩ | ⟨v, -, h⟩ <;>
    rw [State.loadWord, h]
  · obtain ⟨h1, h2⟩ := memReadWord_error hk
    exact .fault k (mayRaise_bus h1 ho) fun hv => h2 hv _
  · exact .setReg hd hb

theorem loadByte_effect {rA : RegId} (hd : rA ∈ i.destinations) (hb : i.firstBadReg = none)
    (ho : i.opcode = .loadByte ∨ i.opcode = .loadDirectByte) (a : Word) :
    Effect i s (s.loadByte rA a) := by
  rcases orRaise_cases s (memReadByte s a) fun b => s.setReg rA (b.setWidth 32) with ⟨k, hk, h⟩ | ⟨v, -, h⟩ <;>
    rw [State.loadByte, h]
  · obtain ⟨rfl, h2⟩ := memReadByte_error hk
    exact .fault _ (by rcases ho with ho | ho <;> rw [ho] <;> simp [Opcode.MayRaise]) fun hv => h2 hv _
  · exact .setReg hd hb

theorem storeWord_effect {rA : RegId} {a : Word} (hst : i.storeTarget s = some (a, 4))
    (hb : i.firstBadReg = none)
    (ho : i.opcode ∈ [Opcode.load, .loadDirect, .store, .storeDirect, .push, .pop, .call, .ret]) :
    Effect i s (s.storeWord rA a) := by
  rcases orRaise_cases s (memWriteWord s a (s.getReg rA)) id with ⟨k, hk, h⟩ | ⟨t, ht, h⟩ <;>
    rw [State.storeWord, h]
  · obtain ⟨h1, h2⟩ := memWriteWord_error hk
    exact .fault k (mayRaise_bus h1 ho) fun hv => h2 hv _
  · rcases memWriteWord_ok ht with ⟨rfl, hs⟩ | ⟨rfl, rfl⟩
    · obtain ⟨h1, h2, -⟩ := selectAligned_ok hs
      exact .stored _ a [_, _, _, _] hst h1 (.inr ⟨rfl, h2⟩) rfl rfl rfl rfl rfl (fun _ _ => rfl) hb
    · exact .emitted _ _ 4 hst rfl rfl rfl rfl rfl (fun _ _ => rfl) hb

theorem storeByte_effect {rA : RegId} {a : Word} (hst : i.storeTarget s = some (a, 1))
    (hb : i.firstBadReg = none) (ho : i.opcode = .storeByte ∨ i.opcode = .storeDirectByte) :
    Effect i s (s.storeByte rA a) := by
  rcases orRaise_cases s (memWriteByte s a ((s.getReg rA).setWidth 8)) id with ⟨k, hk, h⟩ | ⟨t, ht, h⟩ <;>
    rw [State.storeByte, h]
  · obtain ⟨rfl, h2⟩ := memWriteByte_error hk
    exact .fault _ (by rcases ho with ho | ho <;> rw [ho] <;> simp [Opcode.MayRaise]) fun hv => h2 hv _
  · rcases memWriteByte_ok ht with ⟨rfl, hs⟩ | ⟨rfl, rfl⟩
    · exact .stored _ a [_] hst hs (.inl rfl) rfl rfl rfl rfl rfl (fun _ _ => rfl) hb
    · exact .emitted _ _ 1 hst rfl rfl rfl rfl rfl (fun _ _ => rfl) hb

theorem pushReg_effect {src : RegId} {go : State → State} (hi : i.opcode = .push ∨ i.opcode = .call)
    (hb : i.firstBadReg = none) (hsp : spIx ∈ i.destinations) (hc : ∀ u, (go u).cfg = u.cfg)
    (hr : ∀ u, (go u).run = u.run) (hy : ∀ u, (go u).cycles = u.cycles) (hm : ∀ u, (go u).mem = u.mem)
    (ho : ∀ u, (go u).out = u.out) (hg : ∀ u r, r ∉ i.destinations → (go u).getReg r = u.getReg r) :
    Effect i s (pushReg s src go) := by
  have hst : i.storeTarget s = some (s.sp - 4, 4) := by
    rcases hi with hi | hi <;> simp [Instr.storeTarget, hi]
  have hsr : ∀ r, r ∉ i.destinations → (s.setReg spIx (s.sp - 4)).getReg r = s.getReg r := fun r h =>
    getReg_setReg_other s spIx r _ fun e => h (e ▸ hsp)
  rcases pushReg_cases s src go with ⟨k, hk, h⟩ | ⟨t, ht, h⟩ <;> rw [h]
  · obtain ⟨h1, h2⟩ := memWriteWord_error hk
    exact .pushFault k hi (mayRaise_bus h1 (by rcases hi with hi | hi <;> simp [hi])) h1 fun hv => h2 hv _
  · rcases memWriteWord_ok ht with ⟨rfl, hs⟩ | ⟨rfl, h5⟩
    · obtain ⟨h1, h2, -⟩ := selectAligned_ok hs
      exact .stored _ (s.sp - 4) [_, _, _, _] hst h1 (.inr ⟨rfl, h2⟩) (hc _) (hr _) (hy _) (hm _) (ho _)
        (fun r h => (hg _ r h).trans (hsr r h)) hb
    · exact .emitted _ _ 4 (by rw [hst, h5]; rfl) (hc _) (hr _) (hy _) (hm _) (ho _)
        (fun r h => (hg _ r h).trans (hsr r h)) hb

theorem popReg_effect {dst : RegId} (ho : i.opcode = .pop ∨ i.opcode = .ret) (hb : i.firstBadReg = none)
    (hd : dst ∈ i.destinations) (hsp : spIx ∈ i.destinations) : Effect i s (popReg s dst) := by
  rcases popReg_cases s dst with ⟨k, hk, h⟩ | ⟨v, -, h⟩ <;> rw [h]
  · obtain ⟨h1, h2⟩ := memReadWord_error hk
    exact .fault k (mayRaise_bus h1 (by rcases ho with ho | ho <;> simp [ho])) fun hv => h2 hv _
  · exact .regs _ rfl rfl rfl rfl rfl (fun r hr => by
      have h1 : r ≠ spIx := fun e => hr (e ▸ hsp)
      have h2 : r ≠ dst := fun e => hr (e ▸ hd)
      rw [getReg_setReg_other _ _ _ _ h1, getReg_setReg_other _ _ _ _ h2]) hb

theorem loadStore1_effect {go : RegId → State} (hi : i.firstBadReg = firstBad [f.reg1])
    (h : ∀ rA, regOf f.reg1 = some rA → i.firstBadReg = none → Effect i s (go rA)) :
    Effect i s (s.withReg1 f go) := by
  rcases withReg1_cases s f go with ⟨rA, hA, hb, e⟩ | ⟨b, hb, e⟩ <;> rw [e]
  · exact h rA hA (hi.trans hb)
  · exact .badReg (hi.trans hb)

theorem loadStore2_effect {go : RegId → RegId → State} (hi : i.firstBadReg = firstBad [f.reg1, f.reg2])
    (h : ∀ rA rB, regOf f.reg1 = some rA → regOf f.reg2 = some rB → i.firstBadReg = none →
      Effect i s (go rA rB)) : Effect i s (s.withReg2 f go) := by
  rcases withReg2_cases s f go with ⟨rA, rB, hA, hB, hb, e⟩ | ⟨b, hb, e⟩ <;> rw [e]
  · exact h rA rB hA hB (hi.trans hb)
  · exact .badReg (hi.trans hb)

theorem dst_mem {rA : RegId} (h : regOf f.reg1 = some rA) : rA ∈ (regOf f.reg1).toList := by simp [h]

/-- Executing any instruction answers a next state, and it is one of the effects. -/
theorem exec_effect (i : Instr) (s : State) : ∃ t, exec i s = .next t ∧ Effect i s t := by
  cases i with
  | nop f => exact ⟨s, rfl, .regs _ rfl rfl rfl rfl rfl (fun _ _ => rfl) rfl⟩
  | halt f => exact ⟨_, rfl, .halted rfl⟩
  | increment f => exact ⟨_, rfl, unary_effect rfl rfl _⟩
  | decrement f => exact ⟨_, rfl, unary_effect rfl rfl _⟩
  | add f => exact ⟨_, rfl, binary_effect rfl rfl _⟩
  | subtract f => exact ⟨_, rfl, binary_effect rfl rfl _⟩
  | multiply f => exact ⟨_, rfl, binary_effect rfl rfl _⟩
  | divide f => exact divide_effect f s
  | addImmediate f => exact ⟨_, rfl, binaryImm_effect rfl rfl _⟩
  | subtractImmediate f => exact ⟨_, rfl, binaryImm_effect rfl rfl _⟩
  | and f => exact ⟨_, rfl, binary_effect rfl rfl _⟩
  | or f => exact ⟨_, rfl, binary_effect rfl rfl _⟩
  | xor f => exact ⟨_, rfl, binary_effect rfl rfl _⟩
  | negate f => exact ⟨_, rfl, unary_effect rfl rfl _⟩
  | complement f => exact ⟨_, rfl, unary_effect rfl rfl _⟩
  | loadImmediate f => exact ⟨_, rfl, loadStore1_effect rfl fun _ hA hb => .setReg (dst_mem hA) hb⟩
  | load f =>
    exact ⟨_, rfl, loadStore2_effect rfl fun _ _ hA _ hb => loadWord_effect (dst_mem hA) hb (by simp [Instr.opcode]) _⟩
  | loadByte f =>
    exact ⟨_, rfl, loadStore2_effect rfl fun _ _ hA _ hb => loadByte_effect (dst_mem hA) hb (.inl rfl) _⟩
  | loadDirect f =>
    exact ⟨_, rfl, loadStore1_effect rfl fun _ hA hb => loadWord_effect (dst_mem hA) hb (by simp [Instr.opcode]) _⟩
  | loadDirectByte f =>
    exact ⟨_, rfl, loadStore1_effect rfl fun _ hA hb => loadByte_effect (dst_mem hA) hb (.inr rfl) _⟩
  | store f =>
    exact ⟨_, rfl, loadStore2_effect rfl fun _ _ _ hB hb => storeWord_effect
      (by simp [Instr.storeTarget, Instr.opcode, Instr.fields, hB]) hb (by simp [Instr.opcode])⟩
  | storeByte f =>
    exact ⟨_, rfl, loadStore2_effect rfl fun _ _ _ hB hb => storeByte_effect
      (by simp [Instr.storeTarget, Instr.opcode, Instr.fields, hB]) hb (.inl rfl)⟩
  | storeDirect f =>
    exact ⟨_, rfl, loadStore1_effect rfl fun _ _ hb => storeWord_effect rfl hb (by simp [Instr.opcode])⟩
  | storeDirectByte f =>
    exact ⟨_, rfl, loadStore1_effect rfl fun _ _ hb => storeByte_effect rfl hb (.inr rfl)⟩
  | push f =>
    exact ⟨_, rfl, loadStore1_effect rfl fun _ _ hb => pushReg_effect (.inl rfl) hb
      (by simp [Instr.destinations, Instr.opcode]) (fun _ => rfl) (fun _ => rfl) (fun _ => rfl)
      (fun _ => rfl) (fun _ => rfl) (fun _ _ _ => rfl)⟩
  | pop f =>
    exact ⟨_, rfl, loadStore1_effect rfl fun _ hA hb => popReg_effect (.inl rfl) hb
      (by simp [Instr.destinations, Instr.opcode, Instr.fields, hA])
      (by simp [Instr.destinations, Instr.opcode])⟩
  | jump f => exact ⟨_, rfl, .setReg (by simp [Instr.destinations, Instr.opcode]) rfl⟩
  | call f =>
    exact ⟨_, rfl, pushReg_effect (.inr rfl) rfl (by simp [Instr.destinations, Instr.opcode])
      (fun _ => rfl) (fun _ => rfl) (fun _ => rfl) (fun _ => rfl) (fun _ => rfl)
      (fun u r hr => getReg_setReg_other u pcIx r _ fun e => hr (by simp [Instr.destinations, Instr.opcode, e]))⟩
  | ret f =>
    exact ⟨_, rfl, popReg_effect (.inr rfl) rfl (by simp [Instr.destinations, Instr.opcode])
      (by simp [Instr.destinations, Instr.opcode])⟩
  | branchEqual f =>
    refine ⟨_, rfl, ?_⟩
    split
    · exact .setReg (by simp [Instr.destinations, Instr.opcode]) rfl
    · exact .regs _ rfl rfl rfl rfl rfl (fun _ _ => rfl) rfl
  | branchNotEqual f =>
    refine ⟨_, rfl, ?_⟩
    split
    · exact .regs _ rfl rfl rfl rfl rfl (fun _ _ => rfl) rfl
    · exact .setReg (by simp [Instr.destinations, Instr.opcode]) rfl
  | move f => exact ⟨_, rfl, loadStore2_effect rfl fun _ _ hA _ hb => .setReg (dst_mem hA) hb⟩
  | compare f =>
    exact ⟨_, rfl, loadStore2_effect rfl fun _ _ _ _ hb =>
      .setReg (by simp [Instr.destinations, Instr.opcode]) hb⟩
  | compareImmediate f =>
    exact ⟨_, rfl, loadStore1_effect rfl fun _ _ hb =>
      .setReg (by simp [Instr.destinations, Instr.opcode]) hb⟩
  | invalid f => exact ⟨_, rfl, .fault _ rfl fun _ => rfl⟩

/-- The inversion of `exec`: whatever it answers is one of the effects. -/
theorem effect_of_exec (h : exec i s = .next t) : Effect i s t := by
  obtain ⟨u, hu, he⟩ := exec_effect i s
  rw [h] at hu
  injection hu with hu
  exact hu ▸ he

/-- What one step can do (R121, R122, R126). -/
theorem step_cases (h : step s = .next t) :
    s.run = .running ∧
      ((∃ k, fetch s s.pc = .error k ∧ t = s.raise k s.pc) ∨
        (∃ b, fetch s s.pc = .ok b ∧ exec (decode s.cfg.enc b) s.afterFetch = .next t)) := by
  unfold step at h
  cases hr : s.run with
  | halted => rw [hr] at h; cases h
  | faulted f => rw [hr] at h; cases h
  | running =>
    rw [hr] at h
    refine ⟨rfl, ?_⟩
    cases hf : fetch s s.pc with
    | error k => simp only [hf] at h; injection h with h; exact .inl ⟨k, rfl, h.symm⟩
    | ok b => simp only [hf] at h; exact .inr ⟨b, rfl, h⟩

end Sys2Proof.Machine
end

