-- ==== Sys2Proof/Laws/HostOps.lean ====
section
/-! SUPPORT. What the host's run and its report are (40_fsm.md R125 to R130), said once. -/

namespace Sys2Proof.Machine

variable {s t : State}

@[simp] theorem runFor_zero (s : State) : s.runFor 0 = s := rfl

/-- A step that is taken is the first of the run (R121). -/
theorem runFor_succ_of_step (h : step s = .next t) (n : Nat) : s.runFor (n + 1) = t.runFor n := by
  simp [State.runFor, h]

/-- In a state in which no step is enabled the run is over (R126). -/
theorem runFor_of_not_running (h : s.run ≠ .running) (n : Nat) : s.runFor n = s := by
  cases n with
  | zero => rfl
  | succ n =>
    cases hr : s.run with
    | running => exact absurd hr h
    | halted => simp [State.runFor, step, hr]
    | faulted f => simp [State.runFor, step, hr]

@[simp] theorem report_ending (s : State) : s.report.ending = s.run := rfl
@[simp] theorem report_regs (s : State) : s.report.regs = s.regs := rfl
@[simp] theorem report_cycles (s : State) : s.report.cycles = s.cycles := rfl
@[simp] theorem report_mem (s : State) : s.report.mem = s.mem := rfl
@[simp] theorem report_out (s : State) : s.report.out = s.out := rfl

/-- The report of a run that ended in error holds the fault record (R129). -/
theorem faultRecord_report {f : FaultRecord} : s.report.faultRecord = some f ↔ s.run = .faulted f := by
  simp only [RunResult.faultRecord, report_ending]
  cases s.run <;> simp

/-- What the host's whole sequence can answer: the launch's error, or the report of the capped run (R130). -/
theorem hostRun_cases (c : Config) (m : Memory) (p : List Byte) (cap : Nat) :
    (∃ k, State.launch c m p = .error k ∧ hostRun c m p cap = .error k) ∨
      (∃ s, State.launch c m p = .ok s ∧ hostRun c m p cap = .ok (s.runCapped cap).report) := by
  unfold hostRun
  cases State.launch c m p with
  | error k => exact .inl ⟨k, rfl, rfl⟩
  | ok s => exact .inr ⟨s, rfl, rfl⟩

end Sys2Proof.Machine
end

