-- ==== Sys2Proof/Laws/PerInstr.lean ====
section
/-! SUPPORT. The family `RecordKept`, one lemma per constructor of `Instr`: an instruction is the record of its opcode
and its fields (R92). -/

namespace Sys2Proof.Laws

/-- The instruction is given back by its opcode and its fields. -/
def RecordKept.Statement (i : Instr) : Prop := Instr.ofRecord i.opcode i.fields = i

theorem RecordKept.nop (f : Fields) : RecordKept.Statement (.nop f) := rfl
theorem RecordKept.halt (f : Fields) : RecordKept.Statement (.halt f) := rfl
theorem RecordKept.increment (f : Fields) : RecordKept.Statement (.increment f) := rfl
theorem RecordKept.decrement (f : Fields) : RecordKept.Statement (.decrement f) := rfl
theorem RecordKept.add (f : Fields) : RecordKept.Statement (.add f) := rfl
theorem RecordKept.subtract (f : Fields) : RecordKept.Statement (.subtract f) := rfl
theorem RecordKept.multiply (f : Fields) : RecordKept.Statement (.multiply f) := rfl
theorem RecordKept.divide (f : Fields) : RecordKept.Statement (.divide f) := rfl
theorem RecordKept.addImmediate (f : Fields) : RecordKept.Statement (.addImmediate f) := rfl
theorem RecordKept.subtractImmediate (f : Fields) : RecordKept.Statement (.subtractImmediate f) := rfl
theorem RecordKept.and (f : Fields) : RecordKept.Statement (.and f) := rfl
theorem RecordKept.or (f : Fields) : RecordKept.Statement (.or f) := rfl
theorem RecordKept.xor (f : Fields) : RecordKept.Statement (.xor f) := rfl
theorem RecordKept.negate (f : Fields) : RecordKept.Statement (.negate f) := rfl
theorem RecordKept.complement (f : Fields) : RecordKept.Statement (.complement f) := rfl
theorem RecordKept.loadImmediate (f : Fields) : RecordKept.Statement (.loadImmediate f) := rfl
theorem RecordKept.load (f : Fields) : RecordKept.Statement (.load f) := rfl
theorem RecordKept.loadByte (f : Fields) : RecordKept.Statement (.loadByte f) := rfl
theorem RecordKept.loadDirect (f : Fields) : RecordKept.Statement (.loadDirect f) := rfl
theorem RecordKept.loadDirectByte (f : Fields) : RecordKept.Statement (.loadDirectByte f) := rfl
theorem RecordKept.store (f : Fields) : RecordKept.Statement (.store f) := rfl
theorem RecordKept.storeByte (f : Fields) : RecordKept.Statement (.storeByte f) := rfl
theorem RecordKept.storeDirect (f : Fields) : RecordKept.Statement (.storeDirect f) := rfl
theorem RecordKept.storeDirectByte (f : Fields) : RecordKept.Statement (.storeDirectByte f) := rfl
theorem RecordKept.push (f : Fields) : RecordKept.Statement (.push f) := rfl
theorem RecordKept.pop (f : Fields) : RecordKept.Statement (.pop f) := rfl
theorem RecordKept.jump (f : Fields) : RecordKept.Statement (.jump f) := rfl
theorem RecordKept.call (f : Fields) : RecordKept.Statement (.call f) := rfl
theorem RecordKept.ret (f : Fields) : RecordKept.Statement (.ret f) := rfl
theorem RecordKept.branchEqual (f : Fields) : RecordKept.Statement (.branchEqual f) := rfl
theorem RecordKept.branchNotEqual (f : Fields) : RecordKept.Statement (.branchNotEqual f) := rfl
theorem RecordKept.move (f : Fields) : RecordKept.Statement (.move f) := rfl
theorem RecordKept.compare (f : Fields) : RecordKept.Statement (.compare f) := rfl
theorem RecordKept.compareImmediate (f : Fields) : RecordKept.Statement (.compareImmediate f) := rfl
theorem RecordKept.invalid (f : Fields) : RecordKept.Statement (.invalid f) := rfl

/-- Every instruction is its record. -/
theorem RecordKept.all (i : Instr) : RecordKept.Statement i := by cases i <;> rfl

end Sys2Proof.Laws
end

