-- ==== Sys2Proof/Tests/Slice0.lean ====
section
/-! SUPPORT. Tests of the model against the spec's own examples (30_encoding.md, 95_test_vectors.md and the examples
of files 41 to 46, under the configuration EX), the smoke tests of WellFormed, and a witness for the hypotheses
of each statement. -/

namespace Sys2Proof.Tests

open Sys2Proof Sys2Proof.Machine

/-! WellFormed refuses an ill-formed term for each of its checks (R96). -/

theorem test_wellFormed_accepts : (Instr.add ⟨18, 0, 17, 0⟩).wellFormed = true := by decide
theorem test_wellFormed_refuses_reg1 : (Instr.add ⟨19, 0, 0, 0⟩).wellFormed = false := by decide
theorem test_wellFormed_refuses_reg2 : (Instr.add ⟨0, 255, 0, 0⟩).wellFormed = false := by decide
theorem test_wellFormed_refuses_reg3 : (Instr.add ⟨0, 0, 19, 0⟩).wellFormed = false := by decide
theorem test_assembled_accepts : (Instr.addImmediate ⟨1, 2, 0, 5⟩).assembled = true := by decide
theorem test_assembled_refuses_unused_reg3 : (Instr.addImmediate ⟨1, 2, 1, 5⟩).assembled = false := by decide
theorem test_assembled_refuses_unused_operand : (Instr.push ⟨1, 0, 0, 1⟩).assembled = false := by decide
theorem test_assembled_refuses_sentinel : (Instr.invalid ⟨0, 0, 0, 0⟩).assembled = false := by decide

/-! Every constructor's decoding, from a word written out byte by byte: the examples of files 41 to 46. -/

/-- The decoder under the default codes. -/
def dec (b0 b1 b2 b3 b4 b5 b6 b7 : Byte) : Instr := decode defaultEncoding ⟨b0, b1, b2, b3, b4, b5, b6, b7⟩

theorem test_decode_system :
    dec 0x00 0xFF 0xFF 0xFF 0xFF 0xFF 0xFF 0xFF = .nop ⟨255, 255, 255, 0xFFFFFFFF⟩ ∧
    dec 0x01 0 0 0 0 0 0 0 = .halt ⟨0, 0, 0, 0⟩ ∧
    dec 0xFF 0 0 0 0 0 0 0 = .invalid ⟨0, 0, 0, 0⟩ ∧
    dec 0x60 0x01 0x02 0x03 0 0 0 0x04 = .invalid ⟨1, 2, 3, 4⟩ := by decide

theorem test_decode_arithmetic :
    dec 0x10 0x13 0 0 0 0 0 0 = .increment ⟨19, 0, 0, 0⟩ ∧
    dec 0x11 0x03 0 0 0 0 0 0 = .decrement ⟨3, 0, 0, 0⟩ ∧
    dec 0x12 0x01 0x02 0x03 0 0 0 0 = .add ⟨1, 2, 3, 0⟩ ∧
    dec 0x13 0x01 0x02 0x03 0 0 0 0 = .subtract ⟨1, 2, 3, 0⟩ ∧
    dec 0x14 0x01 0x02 0x03 0 0 0 0 = .multiply ⟨1, 2, 3, 0⟩ ∧
    dec 0x15 0x01 0x02 0x03 0 0 0 0 = .divide ⟨1, 2, 3, 0⟩ ∧
    dec 0x16 0x01 0x02 0x00 0 0 0 0x05 = .addImmediate ⟨1, 2, 0, 5⟩ ∧
    dec 0x17 0x01 0x01 0x00 0 0 0 0x01 = .subtractImmediate ⟨1, 1, 0, 1⟩ ∧
    dec 0x18 0x04 0 0 0 0 0 0 = .negate ⟨4, 0, 0, 0⟩ := by decide

theorem test_decode_logic :
    dec 0x20 0x01 0x02 0x03 0 0 0 0 = .and ⟨1, 2, 3, 0⟩ ∧
    dec 0x21 0x01 0x02 0x03 0 0 0 0 = .or ⟨1, 2, 3, 0⟩ ∧
    dec 0x22 0x01 0x02 0x03 0 0 0 0 = .xor ⟨1, 2, 3, 0⟩ ∧
    dec 0x23 0x05 0 0 0 0 0 0 = .complement ⟨5, 0, 0, 0⟩ := by decide

theorem test_decode_load :
    dec 0x30 0x00 0 0 0xDE 0xAD 0xBE 0xEF = .loadImmediate ⟨0, 0, 0, 0xDEADBEEF⟩ ∧
    dec 0x31 0x01 0x02 0 0 0 0 0 = .load ⟨1, 2, 0, 0⟩ ∧
    dec 0x32 0x01 0x02 0 0 0 0 0 = .loadByte ⟨1, 2, 0, 0⟩ ∧
    dec 0x33 0x01 0 0 0 0 0x11 0x00 = .loadDirect ⟨1, 0, 0, 0x1100⟩ ∧
    dec 0x34 0x01 0 0 0 0 0x11 0x03 = .loadDirectByte ⟨1, 0, 0, 0x1103⟩ ∧
    dec 0x35 0x00 0x10 0 0 0 0 0 = .move ⟨0, 16, 0, 0⟩ := by decide

theorem test_decode_store :
    dec 0x40 0x01 0x02 0 0 0 0 0 = .store ⟨1, 2, 0, 0⟩ ∧
    dec 0x41 0x01 0x02 0 0 0 0 0 = .storeByte ⟨1, 2, 0, 0⟩ ∧
    dec 0x42 0x01 0 0 0 0 0x11 0x00 = .storeDirect ⟨1, 0, 0, 0x1100⟩ ∧
    dec 0x43 0x01 0 0 0 0 0xF0 0x00 = .storeDirectByte ⟨1, 0, 0, 0xF000⟩ ∧
    dec 0x44 0x01 0 0 0 0 0 0 = .push ⟨1, 0, 0, 0⟩ ∧
    dec 0x45 0x02 0 0 0 0 0 0 = .pop ⟨2, 0, 0, 0⟩ := by decide

theorem test_decode_control_flow :
    dec 0x50 0 0 0 0 0 0x10 0x18 = .jump ⟨0, 0, 0, 0x1018⟩ ∧
    dec 0x51 0 0 0 0 0 0x10 0x40 = .call ⟨0, 0, 0, 0x1040⟩ ∧
    dec 0x52 0 0 0 0 0 0 0 = .ret ⟨0, 0, 0, 0⟩ ∧
    dec 0x53 0 0 0 0 0 0x10 0x30 = .branchEqual ⟨0, 0, 0, 0x1030⟩ ∧
    dec 0x54 0 0 0 0 0 0x10 0x08 = .branchNotEqual ⟨0, 0, 0, 0x1008⟩ := by decide

theorem test_decode_compare :
    dec 0x19 0x01 0x02 0 0 0 0 0 = .compare ⟨1, 2, 0, 0⟩ ∧
    dec 0x1A 0x00 0 0 0 0 0 0x0A = .compareImmediate ⟨0, 0, 0, 10⟩ ∧
    dec 0x1B 0 0 0 0 0 0 0 = .invalid ⟨0, 0, 0, 0⟩ := by decide

/-- Encoder examples of 95_test_vectors.md section 2.1, the sentinel's re-encoding among them (R95 (b)). -/
theorem test_encode :
    (encode defaultEncoding (.compareImmediate ⟨0, 0, 0, 10⟩)).toList = [0x1A, 0, 0, 0, 0, 0, 0, 0x0A] ∧
    (encode defaultEncoding (.jump ⟨0, 0, 0, 0x1018⟩)).toList = [0x50, 0, 0, 0, 0, 0, 0x10, 0x18] ∧
    (encode defaultEncoding (dec 0x60 1 2 3 0 0 0 4)).toList = [0xFF, 1, 2, 3, 0, 0, 0, 4] := by decide

theorem test_decodeBytes_refuses_seven :
    decodeBytes defaultEncoding [0, 0, 0, 0, 0, 0, 0] = .error (.notEightBytes 7) := by decide

/-- The table numbers the opcode byte as `W[63:56]`. -/
theorem test_decodeTableWord :
    decodeTableWord 64 0x1201020300000000 = some (.add ⟨1, 2, 3, 0⟩) ∧
    decodeTableWord 64 0x300000000000000A = some (.loadImmediate ⟨0, 0, 0, 10⟩) := by decide

/-! One step of each instruction, on the spec's examples. -/

/-- The reset state with registers set. -/
def start (regs : List (RegId × Word)) : State := regs.foldl (fun s p => s.setReg p.1 p.2) State.reset

/-- A state with a doubleword stored in Main Memory. -/
def withWord (s : State) (a : Nat) (v : Word) : State :=
  s.setMem (s.mem.writeList a [wordByte v 0, wordByte v 1, wordByte v 2, wordByte v 3])

/-- What one step that runs the instruction word `w` leaves, seen through `view`. -/
def after {α : Type} (s : State) (w : Nat) (view : State → α) : Option α :=
  match step (s.withFetchWord 64 w) with
  | .next t => some (view t)
  | .fault _ => none
  | .refused _ => none

/-- The first `n` bytes of memory from `a`. -/
def bytesAt (n a : Nat) (s : State) : List Byte := (List.range n).map fun k => s.byteAt (a + k)

theorem test_nop : after (start []) 0x00FFFFFFFFFFFFFF (fun t => (t.pc, t.cycles, t.run)) =
    some (0x1008, 1, .running) := by decide
theorem test_halt : after (start []) 0x0100000000000000 (fun t => (t.pc, t.cycles, t.run)) =
    some (0x1008, 1, .halted) := by decide
theorem test_invalid : after (start []) 0xFF00000000000000 (fun t => (t.pc, t.cycles, t.run)) =
    some (0x1008, 1, .faulted ⟨.invalidInstructionFault 0x1000, 0x1000⟩) := by decide
theorem test_register_index_fault : after (start []) 0x1013000000000000 (fun t => (t.pc, t.cycles, t.run)) =
    some (0x1008, 1, .faulted ⟨.registerIndexFault 19, 0x1000⟩) := by decide

theorem test_increment_wraps :
    after (start [(0, 0xFFFFFFFF)]) 0x1000000000000000 (fun t => (t.getReg 0, t.sr)) = some (0, 0) := by decide
theorem test_increment_pc : after (start []) 0x1010000000000000 State.pc = some 0x1009 := by decide
theorem test_decrement_wraps :
    after (start []) 0x1103000000000000 (fun t => t.getReg 3) = some 0xFFFFFFFF := by decide
theorem test_add_wraps :
    after (start [(2, 0xFFFFFFFF), (3, 2)]) 0x1201020300000000 (fun t => t.getReg 1) = some 1 := by decide
theorem test_add_same_register :
    after (start [(1, 0x80000001)]) 0x1201010100000000 (fun t => t.getReg 1) = some 2 := by decide
theorem test_subtract_order :
    after (start [(2, 3), (3, 5)]) 0x1301020300000000 (fun t => t.getReg 1) = some 0xFFFFFFFE := by decide
theorem test_multiply_low_half :
    after (start [(2, 0xFFFFFFFF), (3, 0xFFFFFFFF)]) 0x1401020300000000 (fun t => t.getReg 1) = some 1 := by decide
theorem test_divide_unsigned :
    after (start [(2, 0xFFFFFFFF), (3, 2)]) 0x1501020300000000 (fun t => t.getReg 1) = some 0x7FFFFFFF := by decide
theorem test_divide_by_zero :
    after (start [(1, 9), (2, 7)]) 0x1501020300000000 (fun t => (t.getReg 1, t.pc, t.run)) =
      some (9, 0x1008, .faulted ⟨.divideByZeroFault 0x1000, 0x1000⟩) := by decide
theorem test_addImmediate :
    after (start [(2, 0xFFFFFFFE)]) 0x1601020000000005 (fun t => t.getReg 1) = some 3 := by decide
theorem test_subtractImmediate :
    after (start []) 0x1701010000000001 (fun t => t.getReg 1) = some 0xFFFFFFFF := by decide
theorem test_negate : after (start [(4, 5)]) 0x1804000000000000 (fun t => t.getReg 4) = some 0xFFFFFFFB := by decide

theorem test_and :
    after (start [(2, 0xF0F0F0F0), (3, 0xFF00FF00)]) 0x2001020300000000 (fun t => t.getReg 1) =
      some 0xF000F000 := by decide
theorem test_or :
    after (start [(2, 0xF0F0F0F0), (3, 0xFF00FF00)]) 0x2101020300000000 (fun t => t.getReg 1) =
      some 0xFFF0FFF0 := by decide
theorem test_xor :
    after (start [(2, 0xF0F0F0F0), (3, 0xFF00FF00)]) 0x2201020300000000 (fun t => t.getReg 1) =
      some 0x0FF00FF0 := by decide
theorem test_complement :
    after (start [(5, 0x0000FFFF)]) 0x2305000000000000 (fun t => t.getReg 5) = some 0xFFFF0000 := by decide

theorem test_loadImmediate : after (start []) 0x300000000000000A (fun t => t.getReg 0) = some 10 := by decide
theorem test_load :
    after (withWord (start [(2, 0x1100)]) 0x1100 0xDEADBEEF) 0x3101020000000000 (fun t => t.getReg 1) =
      some 0xDEADBEEF := by decide
theorem test_load_misaligned :
    after (start [(1, 9), (2, 0x1101)]) 0x3101020000000000 (fun t => (t.getReg 1, t.run)) =
      some (9, .faulted ⟨.alignmentFault 0x1101 4, 0x1000⟩) := by decide
theorem test_loadByte_zero_extends :
    after (withWord (start [(2, 0x1100)]) 0x1100 0xDEADBEEF) 0x3201020000000000 (fun t => t.getReg 1) =
      some 0x000000DE := by decide
theorem test_loadByte_console :
    after (start [(1, 9), (2, 0xF000)]) 0x3201020000000000 (fun t => t.getReg 1) = some 0 := by decide
theorem test_loadDirect :
    after (withWord (start []) 0x1100 0xDEADBEEF) 0x3301000000001100 (fun t => t.getReg 1) =
      some 0xDEADBEEF := by decide
theorem test_loadDirect_unmapped :
    after (start []) 0x3301000000003000 State.run = some (.faulted ⟨.addressFault 0x3000, 0x1000⟩) := by decide
theorem test_loadDirectByte :
    after (withWord (start []) 0x1100 0xDEADBEEF) 0x3401000000001103 (fun t => t.getReg 1) =
      some 0x000000EF := by decide

theorem test_store :
    after (start [(1, 0xCAFEBABE), (2, 0x1100)]) 0x4001020000000000 (bytesAt 4 0x1100) =
      some [0xCA, 0xFE, 0xBA, 0xBE] := by decide
theorem test_storeByte :
    after (withWord (start [(1, 0x01020304), (2, 0x1101)]) 0x1100 0xDEADBEEF) 0x4101020000000000
      (bytesAt 4 0x1100) = some [0xDE, 0x04, 0xBE, 0xEF] := by decide
theorem test_storeDirect_console :
    after (start [(1, 0x41000000)]) 0x420100000000F000 State.out = some [0x41] := by decide
theorem test_storeDirect_console_offset_4 :
    after (start [(1, 0x41424344)]) 0x420100000000F004 (fun t => (t.out, t.run)) =
      some ([], .faulted ⟨.addressFault 0xF004, 0x1000⟩) := by decide
theorem test_storeDirectByte_console :
    after (start [(1, 0x41)]) 0x430100000000F000 State.out = some [0x41] := by decide

theorem test_push_sp :
    after (start [(17, 0x1FFC)]) 0x4411000000000000 (fun t => (t.sp, bytesAt 4 0x1FF8 t)) =
      some (0x1FF8, [0x00, 0x00, 0x1F, 0xF8]) := by decide
theorem test_push_without_stack :
    after (start [(1, 7)]) 0x4401000000000000 (fun t => (t.sp, t.run)) =
      some (0xFFFFFFFC, .faulted ⟨.addressFault 0xFFFFFFFC, 0x1000⟩) := by decide
theorem test_push_console :
    after (start [(1, 0x41424344), (17, 0xF004)]) 0x4401000000000000 (fun t => (t.sp, t.out)) =
      some (0xF000, [0x41]) := by decide
theorem test_pop :
    after (withWord (start [(17, 0x1FF8)]) 0x1FF8 7) 0x4502000000000000 (fun t => (t.getReg 2, t.sp)) =
      some (7, 0x1FFC) := by decide
theorem test_pop_sp :
    after (withWord (start [(17, 0x1FF8)]) 0x1FF8 0x1000) 0x4511000000000000 State.sp = some 0x1004 := by decide
theorem test_move_pc : after (start []) 0x3500100000000000 (fun t => t.getReg 0) = some 0x1008 := by decide

theorem test_jump : after (start []) 0x5000000000001018 State.pc = some 0x1018 := by decide
theorem test_call :
    after (start [(16, 0x1008), (17, 0x1FFC)]) 0x5100000000001040
      (fun t => (t.pc, t.sp, bytesAt 4 0x1FF8 t)) = some (0x1040, 0x1FF8, [0x00, 0x00, 0x10, 0x10]) := by decide
theorem test_call_without_stack :
    after (start [(16, 0x1008)]) 0x5100000000001040 (fun t => (t.pc, t.sp, t.run)) =
      some (0x1010, 0xFFFFFFFC, .faulted ⟨.addressFault 0xFFFFFFFC, 0x1008⟩) := by decide
theorem test_ret :
    after (withWord (start [(17, 0x1FF8)]) 0x1FF8 0x1010) 0x5200000000000000 (fun t => (t.pc, t.sp)) =
      some (0x1010, 0x1FFC) := by decide
theorem test_branchEqual_taken :
    after (start [(16, 0x1010), (18, 1)]) 0x5300000000001030 State.pc = some 0x1030 := by decide
theorem test_branchEqual_not_taken :
    after (start [(16, 0x1010)]) 0x5300000000001030 State.pc = some 0x1018 := by decide
theorem test_branchNotEqual_taken :
    after (start [(16, 0x1010)]) 0x5400000000001008 State.pc = some 0x1008 := by decide
theorem test_branchNotEqual_not_taken :
    after (start [(16, 0x1010), (18, 1)]) 0x5400000000001008 State.pc = some 0x1018 := by decide

theorem test_compare_borrow :
    after (start [(1, 10), (2, 11)]) 0x1901020000000000 State.sr = some 0x00000006 := by decide
theorem test_compare_signed_pitfall :
    after (start [(1, 0x80000000), (2, 1)]) 0x1901020000000000 State.sr = some 0x00000000 := by decide
theorem test_compareImmediate_clears_other_bits :
    after (start [(0, 5), (18, 0xFFFFFFF0)]) 0x1A00000000000005 State.sr = some 0x00000001 := by decide
theorem test_compareImmediate_carry :
    after (start []) 0x1A010000FFFFFFFF State.sr = some 0x00000004 := by decide

/-- A fetch from the console window faults, and a misaligned one (95_test_vectors.md section 2.2). -/
theorem test_fetch_faults :
    fetch State.reset 0xF000 = .error (.addressFault 0xF000) ∧
    fetch State.reset 0x1004 = .error (.alignmentFault 0x1004 8) ∧
    memReadWord State.reset 0x2001 = .error (.addressFault 0x2001) ∧
    memReadWord State.reset 0xF000 = .error (.addressFault 0xF001) := by decide

/-- A launch loads the program where the assembler placed it, and the host reads it back (R331, R68). -/
theorem test_launch :
    (match State.launch exampleConfig [] [0x30, 0, 0, 0, 0, 0, 0, 10] with
      | .ok s => (s.pc, readAll s 0x1000 8)
      | .error _ => (0, .ok [])) = (0x1000, .ok [0x30, 0, 0, 0, 0, 0, 0, 10]) := by decide +kernel

/-- The whole sequence of R130 on a program of one Halt: the result holds the end, the counter, and Main Memory with
the program in it; under a cap of 0 the engine is still running, which no ended run reports (R128, R129). -/
theorem test_hostRun :
    (match hostRun exampleConfig [(0x1FFF, 0xAA)] [0x01, 0, 0, 0, 0, 0, 0, 0] 5 with
      | .ok r => (r.ending, r.cycles, r.mem)
      | .error _ => (.running, 0, [])) = (.halted, 1, [(0x1000, 0x01), (0x1FFF, 0xAA)]) ∧
    (match hostRun exampleConfig [] [0x01, 0, 0, 0, 0, 0, 0, 0] 0 with
      | .ok r => (r.ending, r.cycles)
      | .error _ => (.halted, 1)) = (.running, 0) := by decide +kernel

/-- The reserved labels under EX (R109, 95_test_vectors.md). -/
theorem test_memoryEnd : memoryEnd exampleConfig = 0x1FFC ∧ programEnd exampleConfig 3 = 0x1018 := by decide

/-! A witness for the hypotheses of each statement that has any: concrete states and operands, at the ends of the
ranges (Main Memory 0x1000 to 0x1FFF, the console 0xF000 to 0xF007). -/

/-- EX with the other choice of D13. -/
def zeroConfig : Config := { exampleConfig with consoleReadOther := .zero }

/-- A configuration no run may have (6 bytes of Main Memory), where an aligned access can pass a device's end. -/
def shortConfig : Config := { exampleConfig with memSize := 6 }

theorem exampleConfig_valid : exampleConfig.Valid := by decide +kernel
theorem zeroConfig_valid : zeroConfig.Valid := exampleConfig_valid

/-- A state over another configuration. -/
def withCfg (c : Config) : State := { start [] with cfg := c }

/-- A state that is not the reset state: a register, a byte of memory and the output differ. -/
def used : State := { start [(3, 7)] with mem := [(0x1000, 0x01)], out := [0x41], cycles := 9 }

theorem witness_DecodeOfEncodeIsTheInstruction : defaultEncoding.Valid :=
  exampleConfig_valid.1

theorem witness_EncodeOfDecodeKeepsAssignedBytes :
    defaultEncoding.Valid ∧ (∃ o, defaultEncoding.code o = 0x12) ∧ ∀ o, defaultEncoding.code o ≠ 0x60 :=
  ⟨exampleConfig_valid.1, ⟨.add, rfl⟩, fun o => by cases o <;> decide⟩

/-- Two different bytes 0 that are both the code of no opcode but Invalid. -/
theorem witness_DecodeAlikeExactlyWhen :
    defaultEncoding.Valid ∧ dec 0x60 1 2 3 0 0 0 4 = dec 0xFF 1 2 3 0 0 0 4 :=
  ⟨exampleConfig_valid.1, by decide +kernel⟩

/-- Two devices that overlap, and an address outside both. -/
theorem witness_DispatchTakesTheLastMatch :
    let e1 : MappedDevice := ⟨0x1000, 0x1FFF, .mainMemory⟩
    let e2 : MappedDevice := ⟨0x1FF8, 0x1FFF, .console⟩
    [e1, e2] = [e1] ++ e2 :: [] ∧ e1.claims 0x1FF8 = true ∧ e2.claims 0x1FF8 = true ∧
      [e1, e2] = [] ++ e1 :: [e2] ∧ e1.claims 0x1FF7 = true ∧ (∀ x ∈ [e2], x.claims 0x1FF7 = false) ∧
      ∀ e ∈ [e1, e2], e.claims 0x2000 = false := by decide

theorem witness_PlatformMapServesTwoRanges :
    exampleConfig.Valid ∧
    InMainMemory exampleConfig (0x1000#32).toNat 1 ∧ InMainMemory exampleConfig (0x1FFF#32).toNat 1 ∧
    InConsole exampleConfig (0xF000#32).toNat ∧ InConsole exampleConfig (0xF007#32).toNat ∧
    (¬ InMainMemory exampleConfig (0x0FFF#32).toNat 1 ∧ ¬ InConsole exampleConfig (0x0FFF#32).toNat) ∧
    (¬ InMainMemory exampleConfig (0x2000#32).toNat 1 ∧ ¬ InConsole exampleConfig (0x2000#32).toNat) ∧
    (¬ InMainMemory exampleConfig (0xEFFF#32).toNat 1 ∧ ¬ InConsole exampleConfig (0xEFFF#32).toNat) ∧
    (¬ InMainMemory exampleConfig (0xF008#32).toNat 1 ∧ ¬ InConsole exampleConfig (0xF008#32).toNat) :=
  ⟨exampleConfig_valid, by decide +kernel⟩

theorem witness_UnmappedAddressFaultsEveryAccess :
    Unmapped State.reset.cfg 0x0FFF ∧ Unmapped State.reset.cfg 0x2000 ∧ Unmapped State.reset.cfg 0xF008 := by
  decide

theorem witness_MainMemoryContract :
    (⟨0x1000, 0x1FFF, .mainMemory⟩ : MappedDevice).device = .mainMemory ∧ (0xFFFFFFFC#32).toNat + 3 < 2 ^ 32 := by
  decide

theorem witness_MixedWidthAccessesAgree :
    State.reset.cfg.Valid ∧
    (InMainMemory State.reset.cfg (0x1000#32).toNat 1 ∧ (0x1000#32).toNat % 4 = 0) ∧
    (InMainMemory State.reset.cfg (0x1FFC#32).toNat 1 ∧ (0x1FFC#32).toNat % 4 = 0) :=
  ⟨exampleConfig_valid, by decide +kernel⟩

/-- Misaligned for each width, and byte accesses that fault. -/
theorem witness_MisalignedAccessFaults :
    (¬ Unmapped State.reset.cfg 0x1002 ∧ (0x1002#32).toNat % 4 ≠ 0) ∧
    (¬ Unmapped State.reset.cfg 0x1004 ∧ (0x1004#32).toNat % 8 ≠ 0) ∧
    (¬ Unmapped State.reset.cfg 0xF001 ∧ memReadByte State.reset 0xF001 = .error (.addressFault 0xF001)) ∧
    (¬ Unmapped State.reset.cfg 0xF003 ∧ memWriteByte State.reset 0xF003 7 = .error (.addressFault 0xF003)) := by
  decide

theorem witness_AccessPastTheDeviceEndFaults :
    (∃ e, select (devices (withCfg shortConfig).cfg) 0x1004 = .ok e ∧ (0x1004#32).toNat % 4 = 0 ∧
      e.last.toNat < (0x1004#32).toNat + 3) ∧
    (∃ e, select (devices (withCfg shortConfig).cfg) 0x1000 = .ok e ∧ (0x1000#32).toNat % 8 = 0 ∧
      e.last.toNat < (0x1000#32).toNat + 7) ∧
    State.reset.cfg.Valid ∧ InMainMemory State.reset.cfg (0x1FFC#32).toNat 1 ∧ (0x1FFC#32).toNat % 4 = 0 ∧
    InMainMemory State.reset.cfg (0x1FF8#32).toNat 1 ∧ (0x1FF8#32).toNat % 8 = 0 :=
  ⟨⟨_, rfl, by decide, by decide⟩, ⟨_, rfl, by decide, by decide⟩, exampleConfig_valid, by decide⟩

theorem witness_ConsoleReadsAndFetches :
    (State.reset.cfg.Valid ∧ State.reset.cfg.consoleReadOther = .fault) ∧
    ((withCfg zeroConfig).cfg.Valid ∧ (withCfg zeroConfig).cfg.consoleReadOther = .zero) ∧
    (InConsole State.reset.cfg (0xF001#32).toNat ∧ 0xF001#32 ≠ State.reset.cfg.consoleBase ∧
      InConsole (withCfg zeroConfig).cfg (0xF001#32).toNat ∧ 0xF001#32 ≠ (withCfg zeroConfig).cfg.consoleBase) ∧
    (InConsole State.reset.cfg (0xF007#32).toNat ∧ 0xF007#32 ≠ State.reset.cfg.consoleBase ∧
      InConsole (withCfg zeroConfig).cfg (0xF007#32).toNat ∧ 0xF007#32 ≠ (withCfg zeroConfig).cfg.consoleBase) :=
  ⟨⟨exampleConfig_valid, rfl⟩, ⟨zeroConfig_valid, rfl⟩, by decide +kernel⟩

theorem witness_ConsoleWritesAppendOneByte :
    State.reset.cfg.Valid ∧ (InConsole State.reset.cfg (0xF001#32).toNat ∧ 0xF001#32 ≠ State.reset.cfg.consoleBase) ∧
    (InConsole State.reset.cfg (0xF007#32).toNat ∧ 0xF007#32 ≠ State.reset.cfg.consoleBase) :=
  ⟨exampleConfig_valid, by decide +kernel⟩

/-- A doubleword in the first half of an 8-byte slot and in the last half of the last one, and a byte at the last
address. -/
theorem witness_FetchSeesTheStoredBytes :
    State.reset.cfg.Valid ∧
    (∃ t, InMainMemory State.reset.cfg (0x1000#32).toNat 1 ∧ (0x1000#32).toNat % 4 = 0 ∧
      (0x1000#32).toNat = (0x1000#32).toNat - (0x1000#32).toNat % 8 ∧
      memWriteWord State.reset 0x1000 0xDEADBEEF = .ok t ∧ (0x1000#32).toNat % 8 = 0) ∧
    (∃ t, InMainMemory State.reset.cfg (0x1FFC#32).toNat 1 ∧ (0x1FFC#32).toNat % 4 = 0 ∧
      (0x1FF8#32).toNat = (0x1FFC#32).toNat - (0x1FFC#32).toNat % 8 ∧
      memWriteWord State.reset 0x1FFC 0xDEADBEEF = .ok t ∧ (0x1FFC#32).toNat % 8 = 4) ∧
    (∃ t, InMainMemory State.reset.cfg (0x1FFF#32).toNat 1 ∧
      (0x1FF8#32).toNat = (0x1FFF#32).toNat - (0x1FFF#32).toNat % 8 ∧ memWriteByte State.reset 0x1FFF 7 = .ok t) :=
  ⟨exampleConfig_valid, ⟨_, by decide, by decide, by decide, rfl, by decide⟩,
   ⟨_, by decide, by decide, by decide, rfl, by decide⟩, ⟨_, by decide, by decide, rfl⟩⟩

theorem witness_StepRunsTheDecodedInstruction :
    State.reset.run = .running ∧ ∃ b, fetch State.reset State.reset.pc = .ok b := ⟨rfl, _, rfl⟩

theorem witness_FetchFaultChangesOnlyTheRunState :
    (start [(pcIx, 0x1004)]).run = .running ∧
    fetch (start [(pcIx, 0x1004)]) (start [(pcIx, 0x1004)]).pc = .error (.alignmentFault 0x1004 8) := by decide

/-- A run that was faulted by a division, with its record. -/
def faultedRun : RunState := .faulted ⟨.divideByZeroFault 0x1000, 0x1000⟩

theorem witness_NoStepIsEnabledInATerminalState :
    ((start []).setRun .halted).run = .halted ∧ ((start []).setRun faultedRun).run = faultedRun ∧
    (start []).run = .running := ⟨rfl, rfl, rfl⟩

/-- A step with its fetch answered, and one whose fetch faults. -/
theorem witness_CyclesCountDecodedInstructions :
    (∃ t b, step (start []) = .next t ∧ fetch (start []) (start []).pc = .ok b) ∧
    (∃ t k, step (start [(pcIx, 0x1004)]) = .next t ∧
      fetch (start [(pcIx, 0x1004)]) (start [(pcIx, 0x1004)]).pc = .error k) :=
  ⟨⟨_, _, rfl, rfl⟩, ⟨_, _, rfl, rfl⟩⟩

theorem witness_RunStateChangesOnlyByHaltOrFault :
    (∃ t, exec (.increment ⟨1, 0, 0, 0⟩) (start []) = .next t ∧ t.run = (start []).run) ∧
    (∃ t, exec (.halt ⟨0, 0, 0, 0⟩) (start []) = .next t ∧ (Instr.halt ⟨0, 0, 0, 0⟩).opcode = .halt) ∧
    (∃ t, exec (.invalid ⟨0, 0, 0, 0⟩) (start []) = .next t ∧ t.run ≠ (start []).run) :=
  ⟨⟨_, rfl, rfl⟩, ⟨_, rfl, rfl⟩, ⟨_, rfl, by decide⟩⟩

/-- The last index in range is 18, the first out of range 19; the second field is checked after the first. -/
theorem witness_RegisterFieldsAreCheckedFirst :
    (Instr.add ⟨18, 19, 255, 0⟩).firstBadReg = some 19 ∧ (start []).run = .running ∧
    ∃ t, exec (.add ⟨18, 19, 255, 0⟩) (start []) = .next t ∧
      t.run = .faulted { cause := .registerIndexFault 19, pcFault := (start []).pc - 8 } :=
  ⟨by decide, rfl, _, rfl, by decide⟩

theorem witness_UnusedFieldsAreIgnored :
    Fields.agreeOn ⟨1, 2, 3, 4⟩ ⟨1, 2, 99, 7⟩ Opcode.move.fieldsUsed := by
  intro n hn; cases n <;> first | rfl | exact absurd hn (by decide)

theorem witness_ConfigurationNeverChanges : ∃ t, step (start []) = .next t := ⟨_, rfl⟩

/-- A division by zero, and a Push with `sp = 0`. -/
theorem witness_FaultLeavesOnlyEarlierEffects :
    (start []).run = .running ∧
    (∃ t f, exec (.divide ⟨1, 2, 3, 0⟩) (start []) = .next t ∧ t.run = .faulted f ∧ t.sp = (start []).sp) ∧
    (∃ t f, exec (.push ⟨1, 0, 0, 0⟩) (start []) = .next t ∧ t.run = .faulted f ∧ t.sp = (start []).sp - 4) :=
  ⟨rfl, ⟨_, _, rfl, rfl, by decide⟩, ⟨_, _, rfl, rfl, by decide⟩⟩

/-- One instruction for each of the five kinds. -/
theorem witness_FaultKindsByInstruction :
    (start []).run = .running ∧
    (∃ t p, exec (.push ⟨1, 0, 0, 0⟩) (start []) = .next t ∧ t.run = .faulted ⟨.addressFault 0xFFFFFFFC, p⟩) ∧
    (∃ t p, exec (.loadDirect ⟨1, 0, 0, 0x1002⟩) (start []) = .next t ∧
      t.run = .faulted ⟨.alignmentFault 0x1002 4, p⟩) ∧
    (∃ t p, exec (.divide ⟨1, 2, 3, 0⟩) (start []) = .next t ∧ t.run = .faulted ⟨.divideByZeroFault p, p⟩) ∧
    (∃ t p, exec (.invalid ⟨1, 2, 3, 0⟩) (start []) = .next t ∧
      t.run = .faulted ⟨.invalidInstructionFault p, p⟩) ∧
    (∃ t p, exec (.negate ⟨19, 2, 3, 0⟩) (start []) = .next t ∧ t.run = .faulted ⟨.registerIndexFault 19, p⟩) :=
  ⟨rfl, ⟨_, _, rfl, rfl⟩, ⟨_, _, rfl, rfl⟩, ⟨_, _, rfl, rfl⟩, ⟨_, _, rfl, rfl⟩, ⟨_, _, rfl, rfl⟩⟩

/-- A state other than reset, its first and last byte of Main Memory listed. -/
theorem witness_EveryStepKeepsTheInvariant :
    ∃ t, ({ used with mem := [(0x1000, 1), (0x1FFF, 2)] } : State).Inv ∧
      step { used with mem := [(0x1000, 1), (0x1FFF, 2)] } = .next t :=
  ⟨_, ⟨exampleConfig_valid, by decide, by decide⟩, rfl⟩

/-- A step that enters a fault, from a running state. -/
theorem witness_FaultRecordsStayTruthful :
    ∃ t, (start [(pcIx, 0x2000)]).cfg.Valid ∧ (start [(pcIx, 0x2000)]).FaultTruthful ∧
      step (start [(pcIx, 0x2000)]) = .next t ∧ t.run = .faulted ⟨.addressFault 0x2000, 0x2000⟩ :=
  ⟨_, exampleConfig_valid, fun _ h => RunState.noConfusion (show RunState.running = .faulted _ from h), rfl, by decide⟩

/-- A step that outputs a byte. -/
theorem witness_OutputGrowsByAtMostOneByte :
    ∃ t, step ((start [(1, 0x41)]).withFetchWord 64 0x430100000000F000) = .next t ∧ t.out = [0x41] :=
  ⟨_, rfl, by decide⟩

theorem witness_OnlyDestinationsChange :
    ∃ t, exec (.pop ⟨2, 0, 0, 0⟩) (start [(spIx, 0x1FF8)]) = .next t ∧
      (16 : RegId) ∉ (Instr.pop ⟨2, 0, 0, 0⟩).destinations ∧
      (17 : RegId) ∈ (Instr.pop ⟨2, 0, 0, 0⟩).destinations := ⟨_, rfl, by decide⟩

theorem witness_OnlyStoredBytesChange :
    (∃ t, exec (.add ⟨1, 2, 3, 0⟩) (start []) = .next t ∧
      (Instr.add ⟨1, 2, 3, 0⟩).storeTarget (start []) = none) ∧
    (∃ t, exec (.store ⟨1, 2, 0, 0⟩) (start [(2, 0x1FFC)]) = .next t ∧
      (Instr.store ⟨1, 2, 0, 0⟩).storeTarget (start [(2, 0x1FFC)]) = some (0x1FFC, 4)) :=
  ⟨⟨_, rfl, by decide⟩, ⟨_, rfl, by decide⟩⟩

/-- `sr` named by reg1 where that is no destination (`push sr`), and where it is (`ldi sr`). -/
theorem witness_OnlyComparesWriteTheFlags :
    (∃ t, exec (.push ⟨18, 0, 0, 0⟩) (start []) = .next t ∧ srIx ∉ (Instr.push ⟨18, 0, 0, 0⟩).destinations) ∧
    (∃ t, exec (.loadImmediate ⟨18, 0, 0, 1⟩) (start []) = .next t ∧
      srIx ∈ (Instr.loadImmediate ⟨18, 0, 0, 1⟩).destinations ∧
      (Instr.loadImmediate ⟨18, 0, 0, 1⟩).opcode ≠ .compare ∧
      (Instr.loadImmediate ⟨18, 0, 0, 1⟩).opcode ≠ .compareImmediate) :=
  ⟨⟨_, rfl, by decide⟩, ⟨_, rfl, by decide⟩⟩

/-- The ends of the index range: 0 and 18 name registers, 19 does not. -/
theorem witness_IncrementDecrementNegateResults :
    regOf 0 = some 0 ∧ regOf 18 = some 18 ∧ regOf 19 = none := by decide

theorem witness_AddSubtractMultiplyResults :
    regOf 16 = some pcIx ∧ regOf 18 = some 18 ∧ regOf 0 = some 0 := by decide

theorem witness_DivideResults :
    regOf 1 = some 1 ∧ regOf 2 = some 2 ∧ regOf 18 = some 18 ∧
    (start [(18, 1)]).getReg 18 ≠ 0 ∧ (start []).getReg 18 = 0 := by decide

theorem witness_LogicResults : regOf 15 = some 15 ∧ regOf 17 = some spIx ∧ regOf 18 = some srIx := by decide

theorem witness_ImmediateAndMoveResults : regOf 16 = some pcIx ∧ regOf 18 = some srIx := by decide

/-- A state over the other choice of D13, with registers set. -/
def zeroStart (regs : List (RegId × Word)) : State := { start regs with cfg := zeroConfig }

/-- The first and the last doubleword of Main Memory, and the console's two; by register and by operand, the
destination also the address. -/
theorem witness_LoadDoublewordResults :
    (start []).cfg.Valid ∧ (zeroStart []).cfg.Valid ∧ regOf 2 = some 2 ∧
    ((start [(2, 0x1000)]).ReadsDoubleword 0x1000 0 ∧ (start [(2, 0x1000)]).getReg 2 = 0x1000) ∧
    ((start []).ReadsDoubleword 0x1FFC 0 ∧ (Fields.mk 2 2 0 0x1FFC).operand = 0x1FFC) ∧
    ((zeroStart [(2, 0xF000)]).ReadsDoubleword 0xF000 0 ∧ (zeroStart [(2, 0xF000)]).getReg 2 = 0xF000) ∧
    ((zeroStart []).ReadsDoubleword 0xF004 0 ∧ (Fields.mk 2 2 0 0xF004).operand = 0xF004) :=
  ⟨exampleConfig_valid, zeroConfig_valid, by decide, ⟨.inl (by decide), by decide⟩, ⟨.inl (by decide), by decide⟩,
   ⟨.inr (by decide), by decide⟩, ⟨.inr (by decide), by decide⟩⟩

/-- The first and the last byte of Main Memory, the console port, and its offset 7. -/
theorem witness_LoadByteResults :
    used.cfg.Valid ∧ (zeroStart []).cfg.Valid ∧ regOf 1 = some 1 ∧ regOf 2 = some 2 ∧
    (used.ReadsByte 0x1000 1 ∧ (Fields.mk 1 0 0 0x1000).operand = 0x1000) ∧
    (used.ReadsByte 0x1FFF 0 ∧ (Fields.mk 1 0 0 0x1FFF).operand = 0x1FFF) ∧
    ((start [(2, 0xF000)]).ReadsByte 0xF000 0 ∧ (start [(2, 0xF000)]).getReg 2 = 0xF000) ∧
    ((zeroStart [(2, 0xF007)]).ReadsByte 0xF007 0 ∧ (zeroStart [(2, 0xF007)]).getReg 2 = 0xF007) :=
  ⟨exampleConfig_valid, zeroConfig_valid, by decide, by decide, ⟨.inl (by decide), by decide⟩,
   ⟨.inl (by decide), by decide⟩, ⟨.inr (by decide), by decide⟩, ⟨.inr (by decide), by decide⟩⟩

/-- Each kind of read with an access the bus faults. -/
theorem witness_FaultingReadsWriteNothing :
    let s := start [(2, 0x1FFD), (3, 0x2000)]
    regOf 1 = some 1 ∧ regOf 2 = some 2 ∧ regOf 3 = some 3 ∧
    memReadWord s (s.getReg 2) = .error (.alignmentFault 0x1FFD 4) ∧
    memReadByte s (s.getReg 3) = .error (.addressFault 0x2000) ∧
    memReadWord s (Fields.mk 1 0 0 0xF000).operand = .error (.addressFault 0xF001) ∧
    memReadByte s (Fields.mk 1 0 0 0xF007).operand = .error (.addressFault 0xF007) ∧
    memReadWord s s.sp = .error (.addressFault 0) := by decide

theorem witness_StoreDoublewordResults :
    State.reset.cfg.Valid ∧ regOf 1 = some 1 ∧ regOf 2 = some 2 ∧
    (InMainMemory State.reset.cfg (0x1000#32).toNat 1 ∧ (0x1000#32).toNat % 4 = 0 ∧
      (start [(2, 0x1000#32)]).getReg 2 = 0x1000#32 ∧ (Fields.mk 1 2 0 0x1000#32).operand = 0x1000#32) ∧
    (InMainMemory State.reset.cfg (0x1FFC#32).toNat 1 ∧ (0x1FFC#32).toNat % 4 = 0 ∧
      (start [(2, 0x1FFC#32)]).getReg 2 = 0x1FFC#32 ∧ (Fields.mk 1 2 0 0x1FFC#32).operand = 0x1FFC#32) :=
  ⟨exampleConfig_valid, by decide +kernel⟩

theorem witness_StoreByteResults :
    State.reset.cfg.Valid ∧ regOf 1 = some 1 ∧ regOf 2 = some 2 ∧
    (InMainMemory State.reset.cfg (0x1000#32).toNat 1 ∧
      (start [(2, 0x1000#32)]).getReg 2 = 0x1000#32 ∧ (Fields.mk 1 2 0 0x1000#32).operand = 0x1000#32) ∧
    (InMainMemory State.reset.cfg (0x1FFF#32).toNat 1 ∧
      (start [(2, 0x1FFF#32)]).getReg 2 = 0x1FFF#32 ∧ (Fields.mk 1 2 0 0x1FFF#32).operand = 0x1FFF#32) :=
  ⟨exampleConfig_valid, by decide +kernel⟩

theorem witness_ConsoleStoresOutputOneByte :
    State.reset.cfg.Valid ∧ regOf 1 = some 1 ∧ regOf 2 = some 2 ∧
    (start [(2, 0xF000)]).getReg 2 = State.reset.cfg.consoleBase ∧
    (Fields.mk 1 0 0 0xF000).operand = State.reset.cfg.consoleBase :=
  ⟨exampleConfig_valid, by decide +kernel⟩

theorem witness_FaultingStoresWriteNothing :
    let s := start [(2, 0x1FFE), (3, 0xF001)]
    regOf 1 = some 1 ∧ regOf 2 = some 2 ∧ regOf 3 = some 3 ∧
    memWriteWord s (s.getReg 2) (s.getReg 1) = .error (.alignmentFault 0x1FFE 4) ∧
    memWriteByte s (s.getReg 3) ((s.getReg 1).setWidth 8) = .error (.addressFault 0xF001) ∧
    memWriteWord s (Fields.mk 1 0 0 0xF004).operand (s.getReg 1) = .error (.addressFault 0xF004) ∧
    memWriteByte s (Fields.mk 1 0 0 0x0FFF).operand ((s.getReg 1).setWidth 8) = .error (.addressFault 0xFFF) := by
  decide

/-- `sp` just above the last doubleword, the first, and the console port; a source other than `sp`, and `sp`. -/
theorem witness_PushResults :
    (start []).cfg.Valid ∧ regOf 1 = some 1 ∧ regOf 17 = some spIx ∧
    (InMainMemory State.reset.cfg ((start [(17, 0x2000)]).sp - 4).toNat 1 ∧
      ((start [(17, 0x2000)]).sp - 4).toNat % 4 = 0) ∧
    (InMainMemory State.reset.cfg ((start [(17, 0x1004)]).sp - 4).toNat 1 ∧
      ((start [(17, 0x1004)]).sp - 4).toNat % 4 = 0) ∧
    (start [(17, 0xF004)]).sp - 4 = (start [(17, 0xF004)]).cfg.consoleBase :=
  ⟨exampleConfig_valid, by decide +kernel⟩

/-- `sp = 0`, a misaligned `sp`, and `sp` just above the console's offset 4. -/
theorem witness_FaultingPushAndCallLeaveSpDecremented :
    Unmapped State.reset.cfg ((start []).sp - 4) ∧
    (¬ Unmapped State.reset.cfg ((start [(17, 0x1FFE)]).sp - 4) ∧ ((start [(17, 0x1FFE)]).sp - 4).toNat % 4 ≠ 0) ∧
    (State.reset.cfg.Valid ∧ (start [(17, 0xF008)]).sp - 4 = State.reset.cfg.consoleBase + 4) ∧
    regOf 1 = some 1 :=
  ⟨by decide, by decide, ⟨exampleConfig_valid, by decide⟩, by decide⟩

/-- `sp` at the first and the last doubleword of Main Memory, and at the console's two. -/
theorem witness_PopResults :
    (start []).cfg.Valid ∧ (zeroStart []).cfg.Valid ∧ regOf 1 = some 1 ∧ regOf 17 = some spIx ∧
    (start [(17, 0x1000)]).ReadsDoubleword (start [(17, 0x1000)]).sp 0 ∧
    (start [(17, 0x1FFC)]).ReadsDoubleword (start [(17, 0x1FFC)]).sp 0 ∧
    (zeroStart [(17, 0xF000)]).ReadsDoubleword (zeroStart [(17, 0xF000)]).sp 0 ∧
    (zeroStart [(17, 0xF004)]).ReadsDoubleword (zeroStart [(17, 0xF004)]).sp 0 :=
  ⟨exampleConfig_valid, zeroConfig_valid, by decide, by decide, .inl (by decide), .inl (by decide), .inr (by decide),
   .inr (by decide)⟩

theorem witness_PushThenPopRestores :
    State.reset.cfg.Valid ∧ regOf 16 = some pcIx ∧ (pcIx : RegId) ≠ spIx ∧
    InMainMemory State.reset.cfg ((start [(17, 0x2000)]).sp - 4).toNat 1 ∧
    ((start [(17, 0x2000)]).sp - 4).toNat % 4 = 0 :=
  ⟨exampleConfig_valid, by decide +kernel⟩

/-- `sp` just above the last doubleword, the first, and the console port. -/
theorem witness_CallResults :
    (start []).cfg.Valid ∧
    (InMainMemory State.reset.cfg ((start [(17, 0x2000)]).sp - 4).toNat 1 ∧
      ((start [(17, 0x2000)]).sp - 4).toNat % 4 = 0) ∧
    (InMainMemory State.reset.cfg ((start [(17, 0x1004)]).sp - 4).toNat 1 ∧
      ((start [(17, 0x1004)]).sp - 4).toNat % 4 = 0) ∧
    (start [(17, 0xF004)]).sp - 4 = (start [(17, 0xF004)]).cfg.consoleBase :=
  ⟨exampleConfig_valid, by decide +kernel⟩

/-- `sp` at the first and the last doubleword of Main Memory, and at the console's two. -/
theorem witness_ReturnResults :
    (start []).cfg.Valid ∧ (zeroStart []).cfg.Valid ∧
    (start [(17, 0x1000)]).ReadsDoubleword (start [(17, 0x1000)]).sp 0 ∧
    (start [(17, 0x1FFC)]).ReadsDoubleword (start [(17, 0x1FFC)]).sp 0 ∧
    (zeroStart [(17, 0xF000)]).ReadsDoubleword (zeroStart [(17, 0xF000)]).sp 0 ∧
    (zeroStart [(17, 0xF004)]).ReadsDoubleword (zeroStart [(17, 0xF004)]).sp 0 :=
  ⟨exampleConfig_valid, zeroConfig_valid, .inl (by decide), .inl (by decide), .inr (by decide),
   .inr (by decide)⟩

/-- Nothing between: the state Call leaves meets what is asked of the state Return starts from. -/
theorem witness_CallThenReturnResumes :
    State.reset.cfg.Valid ∧ InMainMemory State.reset.cfg ((start [(17, 0x2000)]).sp - 4).toNat 1 ∧
    ((start [(17, 0x2000)]).sp - 4).toNat % 4 = 0 ∧
    ∃ t, exec (.call ⟨0, 0, 0, 0x1040⟩) (start [(17, 0x2000)]) = .next t ∧ t.cfg = t.cfg ∧ t.sp = t.sp ∧
      ∀ k, k < 4 → t.byteAt (t.sp.toNat + k) = t.byteAt (t.sp.toNat + k) :=
  ⟨exampleConfig_valid, by decide, by decide, _, rfl, rfl, rfl, fun _ _ => rfl⟩

/-- Both forms, and a bit that is no flag. -/
theorem witness_CompareResults :
    State.reset.cfg.FlagBitsValid ∧ regOf 0 = some 0 ∧ regOf 18 = some srIx ∧
    (start [(18, 5)]).getReg 18 = 5 ∧ (Fields.mk 0 0 0 5).operand = 5 ∧
    31 ≠ State.reset.cfg.zBit.val ∧ 31 ≠ State.reset.cfg.nBit.val ∧ 31 ≠ State.reset.cfg.cBit.val := by
  decide

/-- A launch that is answered, over initial contents that are not all zero. -/
theorem witness_LaunchLeavesTheResetState :
    (exampleConfig.Valid ∧ Memory.wf [(0x1FFF, 0xAA)] ∧ Memory.inRange exampleConfig [(0x1FFF, 0xAA)] ∧
      [(0x01 : Byte), 0, 0, 0, 0, 0, 0, 0].length ≤ exampleConfig.memSize) ∧
    ∃ s, State.launch exampleConfig [(0x1FFF, 0xAA)] [0x01, 0, 0, 0, 0, 0, 0, 0] = .ok s := by
  refine ⟨by decide +kernel, ?_⟩
  have h : (match State.launch exampleConfig [(0x1FFF, 0xAA)] [0x01, 0, 0, 0, 0, 0, 0, 0] with
      | .ok _ => true | .error _ => false) = true := by decide +kernel
  revert h
  cases State.launch exampleConfig [(0x1FFF, 0xAA)] [0x01, 0, 0, 0, 0, 0, 0, 0] with
  | ok s => exact fun _ => ⟨s, rfl⟩
  | error _ => exact fun h => nomatch h

/-- The first and the last 8-byte slot of Main Memory. -/
theorem witness_PlacedWordIsTheNextInstruction :
    State.reset.cfg.Valid ∧ ((start [(pcIx, 0x1000#32)]).run = .running ∧
      InMainMemory State.reset.cfg (start [(pcIx, 0x1000#32)]).pc.toNat 1 ∧
      (start [(pcIx, 0x1000#32)]).pc.toNat % 8 = 0) ∧
    ((start [(pcIx, 0x1FF8#32)]).run = .running ∧ InMainMemory State.reset.cfg (start [(pcIx, 0x1FF8#32)]).pc.toNat 1 ∧
      (start [(pcIx, 0x1FF8#32)]).pc.toNat % 8 = 0) :=
  ⟨exampleConfig_valid, by decide +kernel⟩

/-- A run that is still going after one step, one that has ended, and one that the host's cap of one instruction
stops. -/
theorem witness_RunsStopAtAnEndOrAtTheCap :
    ((start []).runFor 1).run = .running ∧
    (((start []).withFetchWord 64 0x0100000000000000).runFor 1).run ≠ .running ∧
    (∃ t, ((start []).withFetchWord 64 0x0100000000000000).EndsIn t) ∧
    ((start []).runCapped 1).run = .running :=
  ⟨by decide, by decide, ⟨_, ⟨1, rfl⟩, by decide⟩, by decide⟩

end Sys2Proof.Tests
end

namespace Sys2Proof.Machine

/-- A running step past its fetch is the execute phase on the state after the advance and the count (R121). -/
theorem step_of_fetch_ok {s : State} {b : InstrBytes} (hrun : s.run = .running) (hfetch : fetch s s.pc = .ok b) :
    step s = exec (decode s.cfg.enc b) s.afterFetch := by
  simp only [step, hrun, hfetch]

/-- Settles O16: the state the instruction runs in is `State.afterFetch`, whose every field has its law (R25). -/
theorem stepRunsTheDecodedInstruction : Obligations.StepRunsTheDecodedInstruction := by
  intro s b hrun hfetch
  exact ⟨s.afterFetch, step_of_fetch_ok hrun hfetch, pc_afterFetch s, cycles_afterFetch s,
    fun r hr => getReg_afterFetch s r hr, run_afterFetch s, mem_afterFetch s, out_afterFetch s, cfg_afterFetch s⟩

end Sys2Proof.Machine

namespace Sys2Proof.Machine

/-- The operand is read from bytes 4 to 7, the most significant first (R93). -/
theorem operand_decode_toNat (enc : Encoding) (b : InstrBytes) :
    (decode enc b).fields.operand.toNat =
      b.b4.toNat * 2 ^ 24 + b.b5.toNat * 2 ^ 16 + b.b6.toNat * 2 ^ 8 + b.b7.toNat := by
  rw [fields_decode]
  exact joinBytes_toNat b.b4 b.b5 b.b6 b.b7

/-- Settles O1: `fields_decode` places the fields without a look at the opcode, and `opcodeOf_spec` says
which opcode byte 0 stands for. -/
theorem decodeReadsOpcodeAndFields : Obligations.DecodeReadsOpcodeAndFields := by
  intro enc b
  have hfields := fields_decode enc b
  refine ⟨congrArg Fields.reg1 hfields, congrArg Fields.reg2 hfields, congrArg Fields.reg3 hfields,
    operand_decode_toNat enc b, ?_⟩
  rw [opcode_decode]
  exact opcodeOf_spec enc b.b0

end Sys2Proof.Machine

namespace Sys2Proof.Machine

/-- The execute phase leaves the count alone in each of its effects, Halt and the fault entries included (R33). -/
theorem cycles_of_effect {i : Instr} {s t : State} (h : Effect i s t) : t.cycles = s.cycles := by
  cases h with
  | regs _ _ _ hcycles => exact hcycles
  | halted _ => exact cycles_halt s
  | fault k => exact cycles_raiseExec s k
  | pushFault k => exact cycles_raiseExec _ k
  | stored _ _ _ _ _ _ _ _ hcycles => exact hcycles
  | emitted _ _ _ _ _ _ hcycles => exact hcycles

/-- Settles O19: the count is made between the fetch and the execute phase, which does not touch it, and a fetch
fault is entered before it (R121, R122). -/
theorem cyclesCountDecodedInstructions : Obligations.CyclesCountDecodedInstructions := by
  intro s t hstep
  obtain ⟨-, ⟨k, hfetch, rfl⟩ | ⟨b, hfetch, hexec⟩⟩ := step_cases hstep
  · exact ⟨fun _ hok => by simp [hfetch] at hok, fun _ _ => cycles_raise s k s.pc⟩
  · have hcount : t.cycles = s.cycles + 1 :=
      calc t.cycles = s.afterFetch.cycles := cycles_of_effect (effect_of_exec hexec)
        _ = s.cycles + 1 := cycles_afterFetch s
    exact ⟨fun _ _ => hcount, fun _ herror => by simp [hfetch] at herror⟩

end Sys2Proof.Machine

/-! PROOFS. The decoder and the encoder undo each other (30_encoding.md R93 to R95). -/

namespace Sys2Proof

/-- An instruction is determined by its opcode and its fields (R92). -/
theorem instr_ext {i j : Instr} (hopcode : i.opcode = j.opcode) (hfields : i.fields = j.fields) : i = j :=
  calc i = Instr.ofRecord i.opcode i.fields := (Laws.RecordKept.all i).symm
    _ = Instr.ofRecord j.opcode j.fields := by rw [hopcode, hfields]
    _ = j := Laws.RecordKept.all j

/-- Encoding what was decoded writes the code of the opcode found and leaves bytes 1 to 7 as they were (R93, R94). -/
theorem encode_decode (enc : Encoding) (b : InstrBytes) :
    encode enc (decode enc b) = { b with b0 := enc.code (opcodeOf enc b.b0) } := by
  simp [encode]

/-- A byte that is the code of no opcode but Invalid is looked up as Invalid (R93, R101). -/
theorem opcodeOf_unassigned {enc : Encoding} {b : Byte} (h : ∀ o, o ≠ .invalid → enc.code o ≠ b) :
    opcodeOf enc b = .invalid := by
  rcases opcodeOf_spec enc b with ⟨hne, hcode⟩ | ⟨hinvalid, -⟩
  · exact absurd hcode (h _ hne)
  · exact hinvalid

/-- The code of the opcode found is the byte looked up exactly when the byte is some opcode's code or
`INVALID_CODE`. -/
theorem code_opcodeOf_iff {enc : Encoding} (h : enc.Valid) (b : Byte) :
    enc.code (opcodeOf enc b) = b ↔ ∃ o, enc.code o = b := by
  constructor
  · exact fun hcode => ⟨_, hcode⟩
  · rintro ⟨o, rfl⟩
    rw [opcodeOf_code h]

/-- Two bytes are looked up alike exactly when they are equal or neither is the code of an opcode other than
Invalid. -/
theorem opcodeOf_eq_iff (enc : Encoding) (b c : Byte) :
    opcodeOf enc b = opcodeOf enc c ↔
      b = c ∨ (∀ o, o ≠ .invalid → enc.code o ≠ b) ∧ (∀ o, o ≠ .invalid → enc.code o ≠ c) := by
  constructor
  · intro h
    rcases opcodeOf_spec enc b with ⟨hb, hcb⟩ | ⟨hb, hnb⟩ <;>
      rcases opcodeOf_spec enc c with ⟨hc, hcc⟩ | ⟨hc, hnc⟩
    · exact .inl (hcb.symm.trans ((congrArg enc.code h).trans hcc))
    · exact absurd (h.trans hc) hb
    · exact absurd (h.symm.trans hb) hc
    · exact .inr ⟨hnb, hnc⟩
  · rintro (rfl | ⟨hb, hc⟩)
    · rfl
    · rw [opcodeOf_unassigned hb, opcodeOf_unassigned hc]

/-- Two doublewords are equal exactly when their four bytes are (R55). -/
theorem joinBytes_inj (b0 b1 b2 b3 c0 c1 c2 c3 : Byte) :
    joinBytes b0 b1 b2 b3 = joinBytes c0 c1 c2 c3 ↔ b0 = c0 ∧ b1 = c1 ∧ b2 = c2 ∧ b3 = c3 := by
  constructor
  · intro h
    have byte (k : Nat) := congrArg (wordByte · k) h
    exact ⟨by simpa using byte 0, by simpa using byte 1, by simpa using byte 2, by simpa using byte 3⟩
  · rintro ⟨rfl, rfl, rfl, rfl⟩
    rfl

/-- Two byte strings decode to the same fields exactly when bytes 1 to 7 agree (R93). -/
theorem fields_decode_eq_iff (enc : Encoding) (b c : InstrBytes) :
    (decode enc b).fields = (decode enc c).fields ↔
      b.b1 = c.b1 ∧ b.b2 = c.b2 ∧ b.b3 = c.b3 ∧ b.b4 = c.b4 ∧ b.b5 = c.b5 ∧ b.b6 = c.b6 ∧ b.b7 = c.b7 := by
  simp only [fields_decode, Fields.mk.injEq, joinBytes_inj]

/-- Settles O2: the lookup finds the opcode whose code was written, the bytes of the operand join to the operand, and
an instruction is the record of the two. -/
theorem decodeOfEncodeIsTheInstruction : Obligations.DecodeOfEncodeIsTheInstruction := by
  intro enc i hvalid
  apply instr_ext
  · rw [opcode_decode]
    exact opcodeOf_code hvalid i.opcode
  · rw [fields_decode]
    simp only [encode, joinBytes_wordByte]

/-- Settles O3: only byte 0 can change, and it changes exactly when it is no code at all. -/
theorem encodeOfDecodeKeepsAssignedBytes : Obligations.EncodeOfDecodeKeepsAssignedBytes := by
  intro enc b hvalid
  rw [encode_decode]
  refine ⟨?_, fun hnone => ?_⟩
  · rw [← code_opcodeOf_iff hvalid]
    exact ⟨congrArg InstrBytes.b0, fun hcode => by rw [hcode]⟩
  · rw [opcodeOf_unassigned fun o _ => hnone o]
    rfl

/-- Settles O4: two strings decode alike exactly when the opcodes looked up and the fields are equal. -/
theorem decodeAlikeExactlyWhen : Obligations.DecodeAlikeExactlyWhen := by
  intro enc b c _
  rw [← fields_decode_eq_iff enc, ← opcodeOf_eq_iff, ← opcode_decode, ← opcode_decode]
  constructor
  · intro h
    exact ⟨by rw [h], by rw [h]⟩
  · rintro ⟨hfields, hopcode⟩
    exact instr_ext hopcode hfields

/-- Settles O5: each of the six words decodes by evaluation. -/
theorem wordsOfTheSpecDecode : Obligations.WordsOfTheSpecDecode :=
  ⟨by decide, by decide, by decide, by decide, by decide, by decide⟩

end Sys2Proof

/-! PROOFS. The bus and the devices (20_memory.md R50 to R75). -/

namespace Sys2Proof.Machine

section Bus
variable {c : Config} {s t : State} {a v : Word} {b : Byte} {e : MappedDevice} {k : FaultCause}

/-! Addresses of the two ranges. -/

/-- An aligned access that starts in Main Memory lies in it (R51, R59). -/
theorem inMainMemory_aligned (h : c.Valid) {n x : Nat} (hn : n = 4 ∨ n = 8) (hx : InMainMemory c x 1)
    (hal : x % n = 0) : InMainMemory c x n := by
  obtain ⟨-, -, hstart, -, -, hsize, -⟩ := h
  obtain ⟨hlo, hhi⟩ := hx
  rcases hn with rfl | rfl <;> exact ⟨hlo, by omega⟩

theorem inMainMemory_byte {n k x : Nat} (hx : InMainMemory c x n) (hk : k < n) : InMainMemory c (x + k) 1 := by
  obtain ⟨hlo, hhi⟩ := hx
  exact ⟨by omega, by omega⟩

theorem inMainMemory_lt (h : c.Valid) {n x : Nat} (hx : InMainMemory c x n) : x + n ≤ 2 ^ 32 := by
  obtain ⟨-, -, -, -, -, -, htop, -⟩ := h
  exact hx.2.trans htop

theorem inConsole_base (c : Config) : InConsole c c.consoleBase.toNat := ⟨le_refl _, by omega⟩

/-- The offsets of the console window do not wrap (R51). -/
theorem consoleBase_add_toNat (h : c.Valid) {n : Nat} (hn : n < 8) :
    (c.consoleBase + BitVec.ofNat 32 n).toNat = c.consoleBase.toNat + n := by
  obtain ⟨-, -, -, -, -, -, -, htop, -⟩ := h
  exact toNat_add_small (by omega)

theorem inConsole_add (h : c.Valid) {n : Nat} (hn : n < 8) :
    InConsole c (c.consoleBase + BitVec.ofNat 32 n).toNat := by
  rw [consoleBase_add_toNat h hn]
  exact ⟨by omega, by omega⟩

theorem consoleBase_add_ne (h : c.Valid) {n : Nat} (hn : n < 8) (hpos : 0 < n) :
    c.consoleBase + BitVec.ofNat 32 n ≠ c.consoleBase := by
  intro heq
  have := congrArg BitVec.toNat heq
  rw [consoleBase_add_toNat h hn] at this
  omega

theorem consoleBase_mod (h : c.Valid) : c.consoleBase.toNat % 8 = 0 := by
  obtain ⟨-, -, -, hbase, -⟩ := h
  exact hbase

/-- Of the console window only the base is a multiple of 8. -/
theorem mod_eight_ne_zero_of_inConsole (h : c.Valid) (ha : InConsole c a.toNat) (hne : a ≠ c.consoleBase) :
    a.toNat % 8 ≠ 0 := by
  have hbase := consoleBase_mod h
  obtain ⟨hlo, hhi⟩ := ha
  have : a.toNat ≠ c.consoleBase.toNat := fun heq => hne (BitVec.eq_of_toNat_eq heq)
  omega

theorem not_unmapped_of_inConsole (h : c.Valid) (ha : InConsole c a.toNat) : ¬ Unmapped c a :=
  fun hu => ((unmapped_iff h).mp hu).2 ha

/-! Main Memory's bytes after a store. -/

theorem toNat_wordAt (s : State) (n : Nat) : (s.wordAt n).toNat = s.numberAt n := joinBytes_toNat _ _ _ _

/-- A run of stored bytes is read back in order. -/
theorem byteAt_stored (s : State) (x : Nat) (bs : List Byte) {n : Nat} (h : n < bs.length) :
    (s.setMem (s.mem.writeList x bs)).byteAt (x + n) = bs[n] :=
  Memory.read_writeList_inside bs s.mem x n h

theorem byteAt_stored_outside (s : State) (bs : List Byte) {x y : Nat} (h : y < x ∨ x + bs.length ≤ y) :
    (s.setMem (s.mem.writeList x bs)).byteAt y = s.byteAt y :=
  Memory.read_writeList_outside bs s.mem h

/-- The state after the store of a doubleword (R60). -/
def State.putWord (s : State) (x : Nat) (v : Word) : State :=
  s.setMem (s.mem.writeList x [wordByte v 0, wordByte v 1, wordByte v 2, wordByte v 3])

/-- Byte `k` of a stored doubleword (R55). -/
theorem byteAt_putWord (s : State) (x : Nat) (v : Word) {k : Nat} (hk : k < 4) :
    (s.putWord x v).byteAt (x + k) = wordByte v k := by
  rw [State.putWord, byteAt_stored s x _ (by simpa using hk)]
  interval_cases k <;> rfl

theorem byteAt_putWord_outside (s : State) (v : Word) {x y : Nat} (h : y < x ∨ x + 4 ≤ y) :
    (s.putWord x v).byteAt y = s.byteAt y :=
  byteAt_stored_outside s _ h

/-- A stored doubleword is read back (R57). -/
theorem wordAt_putWord (s : State) (x : Nat) (v : Word) : (s.putWord x v).wordAt x = v := by
  have byte0 : (s.putWord x v).byteAt x = wordByte v 0 := byteAt_putWord s x v (k := 0) (by omega)
  rw [State.wordAt, byte0, byteAt_putWord s x v (by omega), byteAt_putWord s x v (by omega),
    byteAt_putWord s x v (by omega), joinBytes_wordByte]

theorem numberAt_putWord (s : State) (x : Nat) (v : Word) : (s.putWord x v).numberAt x = v.toNat := by
  rw [← toNat_wordAt, wordAt_putWord]

theorem numberAt_putWord_outside (s : State) (v : Word) {x y : Nat} (h : y + 4 ≤ x ∨ x + 4 ≤ y) :
    (s.putWord x v).numberAt y = s.numberAt y := by
  have same (k : Nat) (hk : k < 4) := byteAt_putWord_outside s v (x := x) (y := y + k) (by omega)
  have same0 : (s.putWord x v).byteAt y = s.byteAt y := same 0 (by omega)
  simp only [State.numberAt, same0, same 1 (by omega), same 2 (by omega), same 3 (by omega)]

/-- A run of stored bytes changes those bytes only. -/
theorem sameButStore_stored (s : State) (x : Nat) (bs : List Byte) :
    s.SameButStore (s.setMem (s.mem.writeList x bs)) [] x bs.length :=
  ⟨rfl, rfl, rfl, rfl, fun _ hy => byteAt_stored_outside s bs hy, fun _ _ => rfl⟩

theorem sameButStore_putWord (s : State) (x : Nat) (v : Word) : s.SameButStore (s.putWord x v) [] x 4 :=
  sameButStore_stored s x _

/-! The console at its base and at the other offsets, under a valid configuration (R61, R62). -/

theorem memReadByte_console (h : s.cfg.Valid) (ha : InConsole s.cfg a.toNat) :
    memReadByte s a = deviceRead s (conEntry s.cfg) a := by
  simp [memReadByte, select_console h ha]

theorem memWriteByte_console (h : s.cfg.Valid) (ha : InConsole s.cfg a.toNat) (b : Byte) :
    memWriteByte s a b = if a = s.cfg.consoleBase then .ok (s.emit b) else .error (.addressFault a) := by
  simp only [memWriteByte, select_console h ha]
  exact deviceWrite_con s s.cfg a b

theorem memReadWord_console (h : s.cfg.Valid) (ha : InConsole s.cfg a.toNat) (hal : a.toNat % 4 = 0) :
    memReadWord s a = deviceReadDoubleword s (conEntry s.cfg) a := by
  simp [memReadWord, selectAligned_console h (.inl rfl) ha hal]

theorem memWriteWord_console (h : s.cfg.Valid) (ha : InConsole s.cfg a.toNat) (hal : a.toNat % 4 = 0) (v : Word) :
    memWriteWord s a v =
      if a = s.cfg.consoleBase then .ok (s.emit (wordByte v 0)) else .error (.addressFault a) := by
  simp only [memWriteWord, selectAligned_console h (.inl rfl) ha hal]
  exact deviceWriteDoubleword_con s s.cfg a v

theorem deviceRead_con_base (s : State) : deviceRead s (conEntry s.cfg) s.cfg.consoleBase = .ok 0 := by
  rw [deviceRead_con, if_pos rfl]

theorem deviceRead_con_zero (hz : s.cfg.consoleReadOther = .zero) (a : Word) :
    deviceRead s (conEntry s.cfg) a = .ok 0 := by
  rw [deviceRead_con, hz]
  exact ite_self _

theorem deviceRead_con_fault (hf : s.cfg.consoleReadOther = .fault) (hne : a ≠ s.cfg.consoleBase) :
    deviceRead s (conEntry s.cfg) a = .error (.addressFault a) := by
  rw [deviceRead_con, if_neg hne, hf]

theorem consoleBase_mod_four (h : c.Valid) : c.consoleBase.toNat % 4 = 0 := by
  have := consoleBase_mod h
  omega

theorem consoleBase_add_four_mod_four (h : c.Valid) : (c.consoleBase + 4).toNat % 4 = 0 := by
  have := consoleBase_mod h
  have : (c.consoleBase + 4).toNat = c.consoleBase.toNat + 4 := consoleBase_add_toNat h (n := 4) (by omega)
  omega

/-- Where the console's other offsets read as 0, so does an aligned doubleword of it (R61, D13). -/
theorem memReadWord_console_zero (h : s.cfg.Valid) (hz : s.cfg.consoleReadOther = .zero)
    (ha : InConsole s.cfg a.toNat) (hal : a.toNat % 4 = 0) : memReadWord s a = .ok 0 := by
  rw [memReadWord_console h ha hal]
  simp only [deviceReadDoubleword, deviceRead_con_zero hz]
  rfl

/-! What an access primitive answers where the checks fail (R58, R59, R67). -/

theorem memReadWord_of_check (h : selectAligned s.cfg a 4 = .error k) : memReadWord s a = .error k := by
  simp [memReadWord, h]

theorem memWriteWord_of_check (h : selectAligned s.cfg a 4 = .error k) (v : Word) :
    memWriteWord s a v = .error k := by
  simp [memWriteWord, h]

theorem fetch_of_check (h : selectAligned s.cfg a 8 = .error k) : fetch s a = .error k := by
  simp [fetch, h]

/-- An aligned access whose last byte is past the end of the device that claims its first (R59, D16). -/
theorem selectAligned_past_end {n : Nat} (hsel : select (devices c) a = .ok e) (hal : a.toNat % n = 0)
    (hend : e.last.toNat < a.toNat + (n - 1)) : selectAligned c a n = .error (.addressFault a) := by
  simp [selectAligned, hsel, hal, hend]

end Bus

/-! The statements. -/

/-- Settles O6: of the devices that claim the address, those after `e` being none, `e` is the last. -/
theorem dispatchTakesTheLastMatch : Obligations.DispatchTakesTheLastMatch := by
  intro devs a
  refine ⟨fun before after e hdevs he hafter => ?_, fun hnone => ?_⟩
  · have hlast : (devs.filter fun x => x.claims a) = (before.filter fun x => x.claims a) ++ [e] := by
      have : (after.filter fun x => x.claims a) = [] :=
        List.filter_eq_nil_iff.mpr fun x hx => by simp [hafter x hx]
      rw [hdevs, List.filter_append, List.filter_cons_of_pos (by simpa using he), this]
    simp only [select, hlast, List.getLast?_concat]
  · have : (devs.filter fun x => x.claims a) = [] :=
      List.filter_eq_nil_iff.mpr fun x hx => by simp [hnone x hx]
    simp only [select, this, List.getLast?_nil]

/-- Settles O7: the entries of the two devices, with `select_mainMemory`, `select_console` and `unmapped_iff`. -/
theorem platformMapServesTwoRanges : Obligations.PlatformMapServesTwoRanges := by
  intro c a hvalid
  refine ⟨fun hmem => ⟨_, select_mainMemory hvalid hmem, rfl, rfl⟩,
    fun hcon => ⟨_, select_console hvalid hcon, rfl, rfl⟩, fun hmem hcon => ?_⟩
  exact select_unmapped ((unmapped_iff hvalid).mpr ⟨hmem, hcon⟩)

/-- Settles O8: the dispatch of each access fails first. -/
theorem unmappedAddressFaultsEveryAccess : Obligations.UnmappedAddressFaultsEveryAccess := by
  intro s a v b hunmapped
  have hselect := select_unmapped hunmapped
  exact ⟨by simp [memReadByte, hselect], memReadWord_of_check (selectAligned_unmapped hunmapped),
    by simp [memWriteByte, hselect], memWriteWord_of_check (selectAligned_unmapped hunmapped) v,
    fetch_of_check (selectAligned_unmapped hunmapped)⟩

/-- The four operations of a Main Memory entry depend on nothing but its kind (R60). -/
theorem device_ops_of_mainMemory {e : MappedDevice} (he : e.device = .mainMemory) (s : State) (a : Word) :
    deviceRead s e a = deviceRead s (memEntry s.cfg) a ∧
      (∀ b, deviceWrite s e a b = deviceWrite s (memEntry s.cfg) a b) ∧
      deviceReadDoubleword s e a = deviceReadDoubleword s (memEntry s.cfg) a ∧
      (∀ v, deviceWriteDoubleword s e a v = deviceWriteDoubleword s (memEntry s.cfg) a v) ∧
      deviceReadInstruction s e a = deviceReadInstruction s (memEntry s.cfg) a := by
  simp only [deviceReadDoubleword, deviceRead, deviceWrite, deviceWriteDoubleword, deviceReadInstruction, he,
    memEntry, implies_true, and_self]

/-- Settles O9: the operations of Main Memory's entry, and the bytes read after a store. -/
theorem mainMemoryContract : Obligations.MainMemoryContract := by
  intro s e a v b he
  obtain ⟨hread, hwrite, hreadDoubleword, hwriteDoubleword, hreadInstruction⟩ := device_ops_of_mainMemory he s a
  rw [hread, hwrite, hreadDoubleword, hwriteDoubleword, hreadInstruction]
  refine ⟨rfl, ⟨_, rfl, Memory.read_write_same _ _ _, sameButStore_stored s a.toNat [b]⟩, fun htop => ?_,
    ⟨s.putWord a.toNat v, rfl, numberAt_putWord s a.toNat v, sameButStore_putWord s a.toNat v⟩, ⟨_, rfl, rfl⟩, rfl⟩
  exact ⟨_, deviceReadDoubleword_mem s.cfg htop, toNat_wordAt s a.toNat⟩

/-- The doubleword write and the byte read of Main Memory agree (R57). -/
theorem memReadByte_after_memWriteWord {s : State} {a : Word} (hvalid : s.cfg.Valid)
    (hmem : InMainMemory s.cfg a.toNat 1) (hal : a.toNat % 4 = 0) (v : Word) {k : Nat} (hk : k < 4) :
    memReadByte (s.putWord a.toNat v) (a + BitVec.ofNat 32 k) = .ok (wordByte v k) := by
  have hrange := inMainMemory_aligned hvalid (.inl rfl) hmem hal
  have htop := inMainMemory_lt hvalid hrange
  have haddr : (a + BitVec.ofNat 32 k).toNat = a.toNat + k := toNat_add_small (by omega)
  rw [memReadByte_mainMemory (s := s.putWord a.toNat v) hvalid (by rw [haddr]; exact inMainMemory_byte hrange hk),
    haddr, byteAt_putWord s a.toNat v hk]

/-- A byte write inside an aligned doubleword of Main Memory, whatever was written before it (R60). -/
theorem memWriteByte_setMem {s : State} {a : Word} (hvalid : s.cfg.Valid) (hrange : InMainMemory s.cfg a.toNat 4)
    (m : Memory) {k : Nat} (hk : k < 4) (b : Byte) :
    memWriteByte (s.setMem m) (a + BitVec.ofNat 32 k) b = .ok (s.setMem (m.write (a.toNat + k) b)) := by
  have htop := inMainMemory_lt hvalid hrange
  have haddr : (a + BitVec.ofNat 32 k).toNat = a.toNat + k := toNat_add_small (by omega)
  rw [memWriteByte_mainMemory (s := s.setMem m) hvalid (by rw [haddr]; exact inMainMemory_byte hrange hk), haddr]
  rfl

/-- Settles O10: both widths read and write the same bytes of Main Memory. -/
theorem mixedWidthAccessesAgree : Obligations.MixedWidthAccessesAgree := by
  intro s a v hvalid hmem hal
  have hrange := inMainMemory_aligned hvalid (.inl rfl) hmem hal
  refine ⟨⟨_, memWriteWord_mainMemory hvalid hmem hal v, fun k hk =>
    ⟨_, memReadByte_after_memWriteWord hvalid hmem hal v hk, wordByte_toNat v k⟩⟩, fun b0 b1 b2 b3 => ?_⟩
  refine ⟨_, _, _, _, _, memWriteByte_mainMemory hvalid hmem b0,
    memWriteByte_setMem hvalid hrange _ (k := 1) (by omega) b1,
    memWriteByte_setMem hvalid hrange _ (k := 2) (by omega) b2,
    memWriteByte_setMem hvalid hrange _ (k := 3) (by omega) b3,
    memReadWord_mainMemory (s := s.setMem _) hvalid hmem hal, ?_⟩
  rw [toNat_wordAt]
  simp [State.numberAt, Memory.read_write]

/-- Settles O11: a doubleword and a fetch pass through `selectAligned`, a byte access does not. -/
theorem misalignedAccessFaults : Obligations.MisalignedAccessFaults := by
  intro s a v b hmapped
  refine ⟨fun hal => ?_, fun hal => fetch_of_check (selectAligned_misaligned hmapped hal),
    fun k hk => (memReadByte_error hk).1, fun k hk => (memWriteByte_error hk).1⟩
  have hcheck := selectAligned_misaligned hmapped hal
  exact ⟨memReadWord_of_check hcheck, memWriteWord_of_check hcheck v⟩

/-- Settles O12: `selectAligned_past_end`, and an aligned access to Main Memory stays in it. -/
theorem accessPastTheDeviceEndFaults : Obligations.AccessPastTheDeviceEndFaults := by
  refine ⟨fun s a v e hsel => ⟨fun hal hend => ?_, fun hal hend => ?_⟩,
    fun s a v hvalid hmem => ⟨fun hal => ?_, fun hal => ?_⟩⟩
  · have hcheck := selectAligned_past_end hsel hal hend
    exact ⟨memReadWord_of_check hcheck, memWriteWord_of_check hcheck v⟩
  · exact fetch_of_check (selectAligned_past_end hsel hal hend)
  · exact ⟨⟨_, memReadWord_mainMemory hvalid hmem hal⟩, _, memWriteWord_mainMemory hvalid hmem hal v⟩
  · exact ⟨_, fetch_mainMemory hvalid hmem hal⟩

/-- Settles O13: `deviceRead_con` at the port and at the other offsets, and the checks of the aligned accesses. -/
theorem consoleReadsAndFetches : Obligations.ConsoleReadsAndFetches := by
  intro s hvalid
  have hbase := inConsole_base s.cfg
  have hbase4 := consoleBase_mod_four hvalid
  have hfour : InConsole s.cfg (s.cfg.consoleBase + 4).toNat := inConsole_add hvalid (n := 4) (by omega)
  have hfour4 := consoleBase_add_four_mod_four hvalid
  refine ⟨?port, fun a ha hne => ⟨fun hf => ?_, fun hz => ?_⟩, fun hf => ⟨?_, ?_⟩, fun hz => ⟨?_, ?_⟩,
    fun a ha => ⟨fun heq => ?_, fun hne => ?_⟩⟩
  case port => rw [memReadByte_console hvalid hbase, deviceRead_con_base]
  · rw [memReadByte_console hvalid ha, deviceRead_con_fault hf hne]
  · rw [memReadByte_console hvalid ha, deviceRead_con_zero hz]
  · have hnext : deviceRead s (conEntry s.cfg) (s.cfg.consoleBase + 1) =
        .error (.addressFault (s.cfg.consoleBase + 1)) :=
      deviceRead_con_fault hf (consoleBase_add_ne hvalid (n := 1) (by omega) (by omega))
    rw [memReadWord_console hvalid hbase hbase4]
    simp only [deviceReadDoubleword, deviceRead_con_base, hnext]
    rfl
  · have hfirst : deviceRead s (conEntry s.cfg) (s.cfg.consoleBase + 4) =
        .error (.addressFault (s.cfg.consoleBase + 4)) :=
      deviceRead_con_fault hf (consoleBase_add_ne hvalid (n := 4) (by omega) (by omega))
    rw [memReadWord_console hvalid hfour hfour4]
    simp only [deviceReadDoubleword, hfirst]
    rfl
  · exact memReadWord_console_zero hvalid hz hbase hbase4
  · exact memReadWord_console_zero hvalid hz hfour hfour4
  · subst heq
    rw [fetch, selectAligned_console hvalid (.inr rfl) ha (consoleBase_mod hvalid)]
    rfl
  · exact fetch_of_check (selectAligned_misaligned (not_unmapped_of_inConsole hvalid ha)
      (mod_eight_ne_zero_of_inConsole hvalid ha hne))

/-- The most significant byte of a doubleword as a number (R62). -/
theorem toNat_wordByte_zero (v : Word) : (wordByte v 0).toNat = v.toNat / 2 ^ 24 := by
  rw [wordByte_toNat]
  have := v.isLt
  omega

/-- Settles O14: the console's byte write at the port and elsewhere, which the doubleword write is passed to. -/
theorem consoleWritesAppendOneByte : Obligations.ConsoleWritesAppendOneByte := by
  intro s v b hvalid
  have hbase := inConsole_base s.cfg
  have hfour : InConsole s.cfg (s.cfg.consoleBase + 4).toNat := inConsole_add hvalid (n := 4) (by omega)
  have hne : s.cfg.consoleBase + 4 ≠ s.cfg.consoleBase := consoleBase_add_ne hvalid (n := 4) (by omega) (by omega)
  refine ⟨⟨s.emit b, ?_, rfl, rfl, rfl, rfl, rfl, rfl⟩,
    ⟨s.emit (wordByte v 0), wordByte v 0, ?_, rfl, toNat_wordByte_zero v, rfl, rfl, rfl, rfl, rfl⟩,
    fun a ha hne => ?_, ?_⟩
  · rw [memWriteByte_console hvalid hbase, if_pos rfl]
  · rw [memWriteWord_console hvalid hbase (consoleBase_mod_four hvalid), if_pos rfl]
  · rw [memWriteByte_console hvalid ha, if_neg hne]
  · rw [memWriteWord_console hvalid hfour (consoleBase_add_four_mod_four hvalid), if_neg hne]

/-- The 8 bytes that a byte of Main Memory lies in are an aligned fetch of Main Memory (R56, R75). -/
theorem fetch_containing {s : State} {a p : Word} (hvalid : s.cfg.Valid) (hmem : InMainMemory s.cfg a.toNat 1)
    (hp : p.toNat = a.toNat - a.toNat % 8) :
    fetch s p =
      .ok ⟨s.byteAt (p.toNat + 0), s.byteAt (p.toNat + 1), s.byteAt (p.toNat + 2), s.byteAt (p.toNat + 3),
        s.byteAt (p.toNat + 4), s.byteAt (p.toNat + 5), s.byteAt (p.toNat + 6), s.byteAt (p.toNat + 7)⟩ := by
  obtain ⟨-, -, hstart, -, -, hsize, -⟩ := id hvalid
  obtain ⟨hlo, hhi⟩ := hmem
  exact fetch_mainMemory hvalid ⟨by omega, by omega⟩ (by omega)

/-- Settles O15: the fetch reads the half of its 8 bytes that was stored, and the other half as before. -/
theorem fetchSeesTheStoredBytes : Obligations.FetchSeesTheStoredBytes := by
  intro s t a p hvalid hmem hp
  refine ⟨fun v hal hwrite => ?_, fun b hwrite => ?_⟩
  · rw [memWriteWord_mainMemory hvalid hmem hal v] at hwrite
    obtain rfl : s.putWord a.toNat v = t := Except.ok.inj hwrite
    refine ⟨_, fetch_containing (s := s.putWord a.toNat v) hvalid hmem hp, fun hmod => ?_, fun hmod => ?_⟩
    · have hfirst : p.toNat = a.toNat := by omega
      rw [hfirst]
      exact ⟨wordAt_putWord s a.toNat v, (toNat_wordAt (s.putWord a.toNat v) (a.toNat + 4)).trans
        (numberAt_putWord_outside s v (.inr (le_refl _)))⟩
    · have hsecond : a.toNat = p.toNat + 4 := by omega
      rw [hsecond]
      exact ⟨wordAt_putWord s (p.toNat + 4) v, (toNat_wordAt (s.putWord (p.toNat + 4) v) p.toNat).trans
        (numberAt_putWord_outside s v (.inl (le_refl _)))⟩
  · rw [memWriteByte_mainMemory hvalid hmem b] at hwrite
    obtain rfl := Except.ok.inj hwrite
    refine ⟨_, fetch_containing (s := s.setMem _) hvalid hmem hp, ?_⟩
    simp only [InstrBytes.toList, byteAt_setMem, Memory.read_write]
    rfl

end Sys2Proof.Machine

/-! PROOFS. The engine (40_fsm.md) and its faults (60_exceptions.md): what every instruction and every step keeps. -/

namespace Sys2Proof.Machine

section Effects
variable {i : Instr} {s t : State}

/-- An instruction changes no configuration (R50). -/
theorem cfg_of_effect (h : Effect i s t) : t.cfg = s.cfg := by
  cases h with
  | regs _ hcfg => exact hcfg
  | halted => rfl
  | fault => rfl
  | pushFault => rfl
  | stored _ _ _ _ _ _ hcfg => exact hcfg
  | emitted _ _ _ _ hcfg => exact hcfg

/-- What an instruction can leave as the run state: what it was, Halt's, or a fault's with the kinds it may raise and
a truthful record (R125). -/
theorem run_of_effect (h : Effect i s t) :
    t.run = s.run ∨ (i.opcode = .halt ∧ t.run = .halted) ∨
      ∃ k, t.run = .faulted ⟨k, s.instrAddress⟩ ∧ Opcode.MayRaise i.opcode i.firstBadReg k ∧
        (s.cfg.Valid → k.Truthful s.cfg s.instrAddress) := by
  cases h with
  | regs _ _ hrun => exact .inl hrun
  | halted hopcode => exact .inr (.inl ⟨hopcode, rfl⟩)
  | fault k hmay htruthful => exact .inr (.inr ⟨k, rfl, hmay, htruthful⟩)
  | pushFault k _ hmay _ htruthful => exact .inr (.inr ⟨k, by simp, hmay, htruthful⟩)
  | stored _ _ _ _ _ _ _ hrun => exact .inl hrun
  | emitted _ _ _ _ _ hrun => exact .inl hrun

/-- A fault that a running instruction has entered is one it may raise (R300). -/
theorem mayRaise_of_effect (h : Effect i s t) (hrunning : s.run = .running) {f : FaultRecord}
    (hfaulted : t.run = .faulted f) : Opcode.MayRaise i.opcode i.firstBadReg f.cause := by
  rcases run_of_effect h with hrun | ⟨-, hrun⟩ | ⟨k, hrun, hmay, -⟩ <;> rw [hfaulted] at hrun
  · rw [hrunning] at hrun
    cases hrun
  · cases hrun
  · cases hrun
    exact hmay

/-- The stack's stores have `sp` as a destination. -/
theorem spIx_mem_destinations (h : i.opcode = .push ∨ i.opcode = .call) : spIx ∈ i.destinations := by
  rcases h with h | h <;> simp [Instr.destinations, h]

/-- An instruction changes no register but its destinations (R22). -/
theorem getReg_of_effect (h : Effect i s t) {r : RegId} (hr : r ∉ i.destinations) : t.getReg r = s.getReg r := by
  cases h with
  | regs _ _ _ _ _ _ hregs => exact hregs r hr
  | halted => rfl
  | fault => rfl
  | pushFault k hstack =>
    exact getReg_setReg_other s spIx r _ fun heq => hr (heq ▸ spIx_mem_destinations hstack)
  | stored _ _ _ _ _ _ _ _ _ _ _ hregs => exact hregs r hr
  | emitted _ _ _ _ _ _ _ _ _ hregs => exact hregs r hr

/-- What an instruction can do to memory and the output: nothing to either, a store in the range of its target, or one
byte of output (R34, R35). -/
theorem mem_out_of_effect (h : Effect i s t) :
    (t.mem = s.mem ∧ t.out = s.out) ∨
      (∃ (a : Word) (bs : List Byte), i.storeTarget s = some (a, bs.length) ∧
        select (devices s.cfg) a = .ok (memEntry s.cfg) ∧ (bs.length = 1 ∨ bs.length = 4 ∧ a.toNat % 4 = 0) ∧
        t.mem = s.mem.writeList a.toNat bs ∧ t.out = s.out) ∨
      ∃ b, t.mem = s.mem ∧ t.out = s.out ++ [b] := by
  cases h with
  | regs _ _ _ _ hmem hout => exact .inl ⟨hmem, hout⟩
  | halted => exact .inl ⟨rfl, rfl⟩
  | fault => exact .inl ⟨rfl, rfl⟩
  | pushFault => exact .inl ⟨rfl, rfl⟩
  | stored _ a bs htarget hselect halign _ _ _ hmem hout =>
    exact .inr (.inl ⟨a, bs, htarget, hselect, halign, hmem, hout⟩)
  | emitted _ b _ _ _ _ _ hmem hout => exact .inr (.inr ⟨b, hmem, hout⟩)

/-- A store's bytes lie in Main Memory, under a valid configuration (R34). -/
theorem inMainMemory_of_store {c : Config} {a : Word} {n : Nat} (hvalid : c.Valid)
    (hselect : select (devices c) a = .ok (memEntry c)) (halign : n = 1 ∨ n = 4 ∧ a.toNat % 4 = 0) :
    InMainMemory c a.toNat n := by
  have hfirst : InMainMemory c a.toNat 1 := (memEntry_claims hvalid).mp (select_ok hselect).1
  rcases halign with rfl | ⟨rfl, halign⟩
  · exact hfirst
  · exact inMainMemory_aligned hvalid (.inl rfl) hfirst halign

/-- An instruction keeps the invariant of the data. -/
theorem inv_of_effect (h : Effect i s t) (hinv : s.Inv) : t.Inv := by
  obtain ⟨hvalid, hwf, hrange⟩ := hinv
  unfold State.Inv
  rw [cfg_of_effect h]
  refine ⟨hvalid, ?_⟩
  rcases mem_out_of_effect h with ⟨hmem, -⟩ | ⟨a, bs, -, hselect, halign, hmem, -⟩ | ⟨b, hmem, -⟩ <;> rw [hmem]
  · exact ⟨hwf, hrange⟩
  · exact ⟨Memory.wf_writeList hwf a.toNat bs,
      Memory.inRange_writeList hrange bs (inMainMemory_of_store hvalid hselect halign)⟩
  · exact ⟨hwf, hrange⟩

end Effects

/-! The step. -/

theorem inv_afterFetch {s : State} (h : s.Inv) : s.afterFetch.Inv := h

/-- What a step does to memory and the output is what its instruction does: the fetch touches neither. -/
theorem mem_out_of_step {s t : State} (h : step s = .next t) :
    t.out = s.out ∨ ∃ b, t.out = s.out ++ [b] ∧ t.mem = s.mem := by
  obtain ⟨-, ⟨k, -, rfl⟩ | ⟨b, -, hexec⟩⟩ := step_cases h
  · exact .inl rfl
  · rcases mem_out_of_effect (effect_of_exec hexec) with ⟨-, hout⟩ | ⟨_, _, -, -, -, -, hout⟩ | ⟨b, hmem, hout⟩
    · exact .inl hout
    · exact .inl hout
    · exact .inr ⟨b, hout, hmem⟩

/-- Settles O28: `inv_of_effect` from the state after the fetch; a fetch fault changes no data. -/
theorem everyStepKeepsTheInvariant : Obligations.EveryStepKeepsTheInvariant := by
  intro s t hinv hstep
  obtain ⟨-, ⟨k, -, rfl⟩ | ⟨b, -, hexec⟩⟩ := step_cases hstep
  · exact hinv
  · exact inv_of_effect (effect_of_exec hexec) (inv_afterFetch hinv)

/-- Settles O30: a fetch's fault is truthful by `fetch_error`, an instruction's by `run_of_effect`. -/
theorem faultRecordsStayTruthful : Obligations.FaultRecordsStayTruthful := by
  intro s t hvalid _ hstep f hfaulted
  obtain ⟨hrunning, ⟨k, hfetch, rfl⟩ | ⟨b, -, hexec⟩⟩ := step_cases hstep
  · rw [run_raise] at hfaulted
    cases hfaulted
    exact (fetch_error hfetch).2 hvalid s.pc
  · have heffect := effect_of_exec hexec
    rw [cfg_of_effect heffect]
    rcases run_of_effect heffect with hrun | ⟨-, hrun⟩ | ⟨k, hrun, -, htruthful⟩ <;> rw [hfaulted] at hrun
    · rw [run_afterFetch, hrunning] at hrun
      cases hrun
    · cases hrun
    · cases hrun
      exact htruthful hvalid

/-- Settles O17: the fault is raised before the advance and the count (R122). -/
theorem fetchFaultChangesOnlyTheRunState : Obligations.FetchFaultChangesOnlyTheRunState := by
  intro s k hrunning hfetch
  have hstep : step s = .next (s.raise k s.pc) := by simp only [step, hrunning, hfetch]
  exact ⟨_, hstep, rfl, fun _ => rfl, rfl, rfl, rfl, rfl⟩

/-- Settles O21: `exec_effect`. -/
theorem everyInstructionHasANextState : Obligations.EveryInstructionHasANextState := by
  intro i s
  obtain ⟨t, hexec, -⟩ := exec_effect i s
  exact ⟨t, hexec⟩

/-- A running engine takes a step: the fetch's fault is entered, or the instruction has a next state. -/
theorem exists_step_of_running {s : State} (h : s.run = .running) : ∃ t, step s = .next t := by
  cases hfetch : fetch s s.pc with
  | error k => exact ⟨s.raise k s.pc, by simp only [step, h, hfetch]⟩
  | ok b =>
    rw [step_of_fetch_ok h hfetch]
    exact everyInstructionHasANextState _ _

/-- Settles O18: `step` reads the run state first, and a running engine takes a step. -/
theorem noStepIsEnabledInATerminalState : Obligations.NoStepIsEnabledInATerminalState := by
  intro s
  exact ⟨fun hhalted => by simp only [step, hhalted], fun f hfaulted => by simp only [step, hfaulted],
    exists_step_of_running⟩

/-- Halt halts (R141). -/
theorem exec_of_opcode_halt {i : Instr} (h : i.opcode = .halt) (s : State) : exec i s = .next s.halt := by
  have hrecord := Laws.RecordKept.all i
  rw [Laws.RecordKept.Statement, h] at hrecord
  rw [← hrecord]
  rfl

/-- Settles O20: `run_of_effect`, and Halt by its own rule. -/
theorem runStateChangesOnlyByHaltOrFault : Obligations.RunStateChangesOnlyByHaltOrFault := by
  intro i s t hexec
  refine ⟨?_, fun hhalt => ?_⟩
  · rcases run_of_effect (effect_of_exec hexec) with hrun | hhalt | ⟨k, hrun, -⟩
    · exact .inl hrun
    · exact .inr (.inl hhalt)
    · exact .inr (.inr ⟨k, hrun⟩)
  · rw [exec_of_opcode_halt hhalt] at hexec
    cases hexec
    rfl

/-- Settles O25: neither the fetch nor an instruction writes the configuration. -/
theorem configurationNeverChanges : Obligations.ConfigurationNeverChanges := by
  intro s t hstep
  obtain ⟨-, ⟨k, -, rfl⟩ | ⟨b, -, hexec⟩⟩ := step_cases hstep
  · rfl
  · calc t.cfg = s.afterFetch.cfg := cfg_of_effect (effect_of_exec hexec)
      _ = s.cfg := cfg_afterFetch s

/-- Settles O26: of the effects, only `fault` and `pushFault` enter a fault from `Running`. -/
theorem faultLeavesOnlyEarlierEffects : Obligations.FaultLeavesOnlyEarlierEffects := by
  intro i s t f hrunning hexec hfaulted
  cases effect_of_exec hexec with
  | regs _ _ hrun => rw [hrun, hrunning] at hfaulted; cases hfaulted
  | halted => cases hfaulted
  | fault => exact ⟨rfl, rfl, rfl, fun _ _ => rfl, .inl rfl⟩
  | pushFault k hstack =>
    exact ⟨rfl, rfl, rfl, fun r hr => getReg_setReg_other s spIx r _ hr, .inr ⟨hstack, sp_setReg_sp s (s.sp - 4)⟩⟩
  | stored _ _ _ _ _ _ _ hrun => rw [hrun, hrunning] at hfaulted; cases hfaulted
  | emitted _ _ _ _ _ hrun => rw [hrun, hrunning] at hfaulted; cases hfaulted

/-- Settles O27: `mayRaise_of_effect`. -/
theorem faultKindsByInstruction : Obligations.FaultKindsByInstruction := by
  intro i s t f hrunning hexec hfaulted
  exact mayRaise_of_effect (effect_of_exec hexec) hrunning hfaulted

/-- Settles O31: `mem_out_of_step`. -/
theorem outputGrowsByAtMostOneByte : Obligations.OutputGrowsByAtMostOneByte := by
  intro s t hstep
  exact mem_out_of_step hstep

/-- Settles O32: `getReg_of_effect`. -/
theorem onlyDestinationsChange : Obligations.OnlyDestinationsChange := by
  intro i s t r hexec hr
  exact getReg_of_effect (effect_of_exec hexec) hr

/-- Settles O33: of the effects on memory, only the store changes it, and its bytes are the target's. -/
theorem onlyStoredBytesChange : Obligations.OnlyStoredBytesChange := by
  intro i s t hexec
  rcases mem_out_of_effect (effect_of_exec hexec) with ⟨hmem, -⟩ | ⟨a, bs, htarget, -, -, hmem, -⟩ | ⟨_, hmem, -⟩
  · simp [State.byteAt, hmem]
  · refine ⟨fun hnone => ?_, fun a' n htarget' x hx => ?_⟩
    · rw [hnone] at htarget
      cases htarget
    · rw [htarget'] at htarget
      cases htarget
      rw [State.byteAt, hmem]
      exact Memory.read_writeList_outside bs s.mem hx
  · simp [State.byteAt, hmem]

/-- The destinations of an instruction that is no compare are among `pc`, `sp` and the register reg1 names; only the
opcodes that write through reg1 have the last (R29). -/
theorem reg1_of_srIx_mem_destinations {i : Instr} (hsr : srIx ∈ i.destinations) (hc : i.opcode ≠ .compare)
    (hci : i.opcode ≠ .compareImmediate) :
    regOf i.fields.reg1 = some srIx ∧
      i.opcode ∉ [.nop, .halt, .invalid, .store, .storeByte, .storeDirect, .storeDirectByte, .push, .jump, .call,
        .ret, .branchEqual, .branchNotEqual] := by
  have hpc : srIx ≠ pcIx := by decide
  have hsp : srIx ≠ spIx := by decide
  unfold Instr.destinations at hsr
  cases hopcode : i.opcode with
  | compare => exact absurd hopcode hc
  | compareImmediate => exact absurd hopcode hci
  | nop | halt | invalid | store | storeByte | storeDirect | storeDirectByte | push | jump | call | ret
  | branchEqual | branchNotEqual => simp [hopcode, hpc, hsp] at hsr
  | increment | decrement | negate | complement | add | subtract | multiply | divide | and | or | xor
  | addImmediate | subtractImmediate | loadImmediate | move | load | loadByte | loadDirect | loadDirectByte | pop =>
    exact ⟨by simpa [hopcode, hsp] using hsr, by simp⟩

/-- Settles O34: the register frame at `sr`, and which destinations `sr` can be. -/
theorem onlyComparesWriteTheFlags : Obligations.OnlyComparesWriteTheFlags := by
  intro i s t hexec
  exact ⟨fun hsr => getReg_of_effect (effect_of_exec hexec) hsr, reg1_of_srIx_mem_destinations⟩

/-- The default codes are 35 different bytes with the high nibbles of R98 (R97, D1, D2). -/
theorem defaultEncoding_valid : defaultEncoding.Valid := by
  refine ⟨List.Nodup.of_map BitVec.toNat (by decide), ?_⟩
  rintro o - g hg
  cases o <;> cases hg <;> rfl

/-- Settles O29: the example configuration is valid, and the empty memory is canonical and in range. -/
theorem resetMeetsTheInvariant : Obligations.ResetMeetsTheInvariant := by
  refine ⟨⟨defaultEncoding_valid, by decide, by decide⟩, Memory.wf_nil, fun cell hcell => ?_⟩
  cases hcell

end Sys2Proof.Machine

/-! PROOFS. What an instruction checks first (R24, R124), which fields it ignores (R102), and that no step reads what
only the host reads (R33, R35). -/

namespace Sys2Proof.Machine

/-! The check of the register fields. -/

section RegisterCheck
variable {s : State} {f : Fields} {b : Byte}

theorem withReg1_bad (h : firstBad [f.reg1] = some b) (go : RegId → State) :
    s.withReg1 f go = s.raiseExec (.registerIndexFault b) := by
  rcases withReg1_cases s f go with ⟨_, -, hgood, -⟩ | ⟨_, hbad, heq⟩
  · cases h.symm.trans hgood
  · cases h.symm.trans hbad
    exact heq

theorem withReg2_bad (h : firstBad [f.reg1, f.reg2] = some b) (go : RegId → RegId → State) :
    s.withReg2 f go = s.raiseExec (.registerIndexFault b) := by
  rcases withReg2_cases s f go with ⟨_, _, -, -, hgood, -⟩ | ⟨_, hbad, heq⟩
  · cases h.symm.trans hgood
  · cases h.symm.trans hbad
    exact heq

theorem withReg3_bad (h : firstBad [f.reg1, f.reg2, f.reg3] = some b) (go : RegId → RegId → RegId → State) :
    s.withReg3 f go = s.raiseExec (.registerIndexFault b) := by
  rcases withReg3_cases s f go with ⟨_, _, _, -, -, -, hgood, -⟩ | ⟨_, hbad, heq⟩
  · cases h.symm.trans hgood
  · cases h.symm.trans hbad
    exact heq

/-- With a used register field out of range an instruction does nothing but raise its fault (R124). -/
theorem exec_of_firstBadReg {i : Instr} (h : i.firstBadReg = some b) (s : State) :
    exec i s = .next (s.raiseExec (.registerIndexFault b)) := by
  cases i with
  | nop f | halt f | jump f | call f | ret f | branchEqual f | branchNotEqual f | invalid f => cases h
  | increment f | decrement f | negate f | complement f | loadImmediate f | loadDirect f | loadDirectByte f
  | storeDirect f | storeDirectByte f | push f | pop f | compareImmediate f =>
    exact congrArg Host.Outcome.next (withReg1_bad h _)
  | addImmediate f | subtractImmediate f | load f | loadByte f | store f | storeByte f | move f | compare f =>
    exact congrArg Host.Outcome.next (withReg2_bad h _)
  | add f | subtract f | multiply f | divide f | and f | or f | xor f =>
    exact congrArg Host.Outcome.next (withReg3_bad h _)

end RegisterCheck

/-- Raising a fault in execute changes the run state only (R302, R303). -/
theorem faultsTo_raiseExec (s : State) (k : FaultCause) : s.FaultsTo (s.raiseExec k) k [] :=
  ⟨rfl, rfl, rfl, rfl, fun _ => rfl, fun _ _ => rfl⟩

/-- Settles O22: the check comes before the instruction's effect, and no other rule raises this fault. -/
theorem registerFieldsAreCheckedFirst : Obligations.RegisterFieldsAreCheckedFirst := by
  intro i s b
  refine ⟨fun hbad => ⟨_, exec_of_firstBadReg hbad s, faultsTo_raiseExec s _⟩,
    fun hrunning t p hexec hfaulted => ?_⟩
  exact mayRaise_of_effect (effect_of_exec hexec) hrunning hfaulted

/-! Fields that an opcode does not use. -/

/-- Records that agree on the fields listed have them equal. -/
theorem eq_of_agreeOn {f g : Fields} {used : List FieldName} (h : f.agreeOn g used) :
    (.reg1 ∈ used → f.reg1 = g.reg1) ∧ (.reg2 ∈ used → f.reg2 = g.reg2) ∧
      (.reg3 ∈ used → f.reg3 = g.reg3) ∧ (.operand ∈ used → f.operand = g.operand) :=
  ⟨fun hu => BitVec.eq_of_toNat_eq (h _ hu), fun hu => BitVec.eq_of_toNat_eq (h _ hu),
    fun hu => BitVec.eq_of_toNat_eq (h _ hu), fun hu => BitVec.eq_of_toNat_eq (h _ hu)⟩

/-- Settles O23: with the used fields made one, the meanings of the two records are the same term. -/
theorem unusedFieldsAreIgnored : Obligations.UnusedFieldsAreIgnored := by
  intro o f g s hagree
  obtain ⟨hreg1, hreg2, hreg3, hoperand⟩ := eq_of_agreeOn hagree
  obtain ⟨f1, f2, f3, fop⟩ := f
  obtain ⟨g1, g2, g3, gop⟩ := g
  cases o with
  | nop | halt | ret | invalid => rfl
  | increment | decrement | negate | complement | push | pop =>
    obtain rfl : f1 = g1 := hreg1 (by decide)
    rfl
  | add | subtract | multiply | divide | and | or | xor =>
    obtain rfl : f1 = g1 := hreg1 (by decide)
    obtain rfl : f2 = g2 := hreg2 (by decide)
    obtain rfl : f3 = g3 := hreg3 (by decide)
    rfl
  | addImmediate | subtractImmediate =>
    obtain rfl : f1 = g1 := hreg1 (by decide)
    obtain rfl : f2 = g2 := hreg2 (by decide)
    obtain rfl : fop = gop := hoperand (by decide)
    rfl
  | load | loadByte | store | storeByte | move | compare =>
    obtain rfl : f1 = g1 := hreg1 (by decide)
    obtain rfl : f2 = g2 := hreg2 (by decide)
    rfl
  | loadImmediate | loadDirect | loadDirectByte | storeDirect | storeDirectByte | compareImmediate =>
    obtain rfl : f1 = g1 := hreg1 (by decide)
    obtain rfl : fop = gop := hoperand (by decide)
    rfl
  | jump | call | branchEqual | branchNotEqual =>
    obtain rfl : fop = gop := hoperand (by decide)
    rfl

/-! The cycle counter and the output so far. `withHostView` commutes with every operation of a step. -/

section HostView
variable (s : State) (n : Nat) (pre : List Byte)

@[simp] theorem getReg_withHostView (r : RegId) : (s.withHostView n pre).getReg r = s.getReg r := rfl
@[simp] theorem pc_withHostView : (s.withHostView n pre).pc = s.pc := rfl
@[simp] theorem sp_withHostView : (s.withHostView n pre).sp = s.sp := rfl
@[simp] theorem cfg_withHostView : (s.withHostView n pre).cfg = s.cfg := rfl
@[simp] theorem run_withHostView : (s.withHostView n pre).run = s.run := rfl

@[simp] theorem setReg_withHostView (r : RegId) (v : Word) :
    (s.withHostView n pre).setReg r v = (s.setReg r v).withHostView n pre := rfl

theorem emit_withHostView (b : Byte) : (s.withHostView n pre).emit b = (s.emit b).withHostView n pre := by
  simp [State.emit, State.withHostView]

theorem afterFetch_withHostView : (s.withHostView n pre).afterFetch = s.afterFetch.withHostView n pre := by
  simp [State.afterFetch, State.countCycle, State.withHostView, State.setReg, State.pc, State.getReg,
    Nat.add_right_comm]

/-- A choice, where both of its sides commute. -/
theorem ite_withHostView (p : Prop) [Decidable p] {t t' u u' : State} (ht : t' = t.withHostView n pre)
    (hu : u' = u.withHostView n pre) : (if p then t' else u') = (if p then t else u).withHostView n pre := by
  subst ht hu
  exact (apply_ite (fun x => State.withHostView x n pre) p t u).symm

/-- Going on, or entering a fault, where what comes after commutes. -/
theorem orRaise_withHostView {α : Type} {go go' : α → State} (r : Except FaultCause α)
    (h : ∀ x, go' x = (go x).withHostView n pre) :
    (s.withHostView n pre).orRaise r go' = (s.orRaise r go).withHostView n pre := by
  cases r with
  | error k => rfl
  | ok x => exact h x

theorem withReg1_withHostView (f : Fields) {go go' : RegId → State}
    (h : ∀ rA, go' rA = (go rA).withHostView n pre) :
    (s.withHostView n pre).withReg1 f go' = (s.withReg1 f go).withHostView n pre :=
  orRaise_withHostView s n pre _ h

theorem withReg2_withHostView (f : Fields) {go go' : RegId → RegId → State}
    (h : ∀ rA rB, go' rA rB = (go rA rB).withHostView n pre) :
    (s.withHostView n pre).withReg2 f go' = (s.withReg2 f go).withHostView n pre :=
  orRaise_withHostView s n pre _ fun rA => orRaise_withHostView s n pre _ fun rB => h rA rB

theorem withReg3_withHostView (f : Fields) {go go' : RegId → RegId → RegId → State}
    (h : ∀ rA rB rC, go' rA rB rC = (go rA rB rC).withHostView n pre) :
    (s.withHostView n pre).withReg3 f go' = (s.withReg3 f go).withHostView n pre :=
  orRaise_withHostView s n pre _ fun rA =>
    orRaise_withHostView s n pre _ fun rB => orRaise_withHostView s n pre _ fun rC => h rA rB rC

/-- A byte write answers in step with the host's view. -/
theorem memWriteByte_withHostView (a : Word) (b : Byte) :
    memWriteByte (s.withHostView n pre) a b = (memWriteByte s a b).map fun t => t.withHostView n pre := by
  simp only [memWriteByte, cfg_withHostView]
  cases hselect : select (devices s.cfg) a with
  | error k => rfl
  | ok e =>
    rcases (select_ok hselect).2 with rfl | rfl
    · rfl
    · simp only [deviceWrite_con, emit_withHostView]
      split <;> rfl

/-- A doubleword write answers in step with the host's view. -/
theorem memWriteWord_withHostView (a v : Word) :
    memWriteWord (s.withHostView n pre) a v = (memWriteWord s a v).map fun t => t.withHostView n pre := by
  simp only [memWriteWord, cfg_withHostView]
  cases hselect : selectAligned s.cfg a 4 with
  | error k => rfl
  | ok e =>
    rcases (select_ok (selectAligned_ok hselect).1).2 with rfl | rfl
    · rfl
    · simp only [deviceWriteDoubleword_con, emit_withHostView]
      split <;> rfl

theorem orRaise_map {α β : Type} (r : Except FaultCause α) (g : α → β) (go : β → State) :
    s.orRaise (r.map g) go = s.orRaise r fun x => go (g x) := by
  cases r <;> rfl

theorem loadWord_withHostView (rA : RegId) (a : Word) :
    (s.withHostView n pre).loadWord rA a = (s.loadWord rA a).withHostView n pre := by
  have hread : memReadWord (s.withHostView n pre) a = memReadWord s a := memReadWord_congr rfl rfl a
  rw [State.loadWord, hread]
  exact orRaise_withHostView s n pre _ fun _ => rfl

theorem loadByte_withHostView (rA : RegId) (a : Word) :
    (s.withHostView n pre).loadByte rA a = (s.loadByte rA a).withHostView n pre := by
  have hread : memReadByte (s.withHostView n pre) a = memReadByte s a := memReadByte_congr rfl rfl a
  rw [State.loadByte, hread]
  exact orRaise_withHostView s n pre _ fun _ => rfl

theorem storeWord_withHostView (rA : RegId) (a : Word) :
    (s.withHostView n pre).storeWord rA a = (s.storeWord rA a).withHostView n pre := by
  rw [State.storeWord, memWriteWord_withHostView, orRaise_map]
  exact orRaise_withHostView s n pre _ fun _ => rfl

theorem storeByte_withHostView (rA : RegId) (a : Word) :
    (s.withHostView n pre).storeByte rA a = (s.storeByte rA a).withHostView n pre := by
  rw [State.storeByte, memWriteByte_withHostView, orRaise_map]
  exact orRaise_withHostView s n pre _ fun _ => rfl

theorem pushReg_withHostView (src : RegId) {go : State → State}
    (h : ∀ t : State, go (t.withHostView n pre) = (go t).withHostView n pre) :
    pushReg (s.withHostView n pre) src go = (pushReg s src go).withHostView n pre := by
  simp only [pushReg, sp_withHostView, setReg_withHostView, getReg_withHostView, memWriteWord_withHostView,
    orRaise_map]
  exact orRaise_withHostView (s.setReg spIx (s.sp - 4)) n pre _ h

theorem popReg_withHostView (dst : RegId) :
    popReg (s.withHostView n pre) dst = (popReg s dst).withHostView n pre := by
  have hread : memReadWord (s.withHostView n pre) s.sp = memReadWord s s.sp := memReadWord_congr rfl rfl s.sp
  rw [popReg, sp_withHostView, hread]
  exact orRaise_withHostView s n pre _ fun _ => rfl

/-- No instruction reads the cycle counter or the output so far (R33, R35). -/
theorem exec_withHostView (i : Instr) :
    exec i (s.withHostView n pre) = mapNext (fun t => t.withHostView n pre) (exec i s) := by
  cases i with
  | nop f | halt f | jump f | invalid f => rfl
  | increment f | decrement f | negate f | complement f | loadImmediate f | compareImmediate f =>
    exact congrArg Host.Outcome.next (withReg1_withHostView s n pre f fun _ => rfl)
  | addImmediate f | subtractImmediate f | move f | compare f =>
    exact congrArg Host.Outcome.next (withReg2_withHostView s n pre f fun _ _ => rfl)
  | add f | subtract f | multiply f | and f | or f | xor f =>
    exact congrArg Host.Outcome.next (withReg3_withHostView s n pre f fun _ _ _ => rfl)
  | divide f =>
    exact congrArg Host.Outcome.next (withReg3_withHostView s n pre f fun rA rB rC =>
      ite_withHostView n pre (s.getReg rC = 0) rfl rfl)
  | load f =>
    exact congrArg Host.Outcome.next (withReg2_withHostView s n pre f fun rA _ => loadWord_withHostView s n pre rA _)
  | loadByte f =>
    exact congrArg Host.Outcome.next (withReg2_withHostView s n pre f fun rA _ => loadByte_withHostView s n pre rA _)
  | loadDirect f =>
    exact congrArg Host.Outcome.next (withReg1_withHostView s n pre f fun rA => loadWord_withHostView s n pre rA _)
  | loadDirectByte f =>
    exact congrArg Host.Outcome.next (withReg1_withHostView s n pre f fun rA => loadByte_withHostView s n pre rA _)
  | store f =>
    exact congrArg Host.Outcome.next (withReg2_withHostView s n pre f fun rA _ => storeWord_withHostView s n pre rA _)
  | storeByte f =>
    exact congrArg Host.Outcome.next (withReg2_withHostView s n pre f fun rA _ => storeByte_withHostView s n pre rA _)
  | storeDirect f =>
    exact congrArg Host.Outcome.next (withReg1_withHostView s n pre f fun rA => storeWord_withHostView s n pre rA _)
  | storeDirectByte f =>
    exact congrArg Host.Outcome.next (withReg1_withHostView s n pre f fun rA => storeByte_withHostView s n pre rA _)
  | push f =>
    exact congrArg Host.Outcome.next
      (withReg1_withHostView s n pre f fun rA => pushReg_withHostView s n pre rA fun _ => rfl)
  | pop f =>
    exact congrArg Host.Outcome.next (withReg1_withHostView s n pre f fun rA => popReg_withHostView s n pre rA)
  | call f => exact congrArg Host.Outcome.next (pushReg_withHostView s n pre pcIx fun _ => rfl)
  | ret f => exact congrArg Host.Outcome.next (popReg_withHostView s n pre pcIx)
  | branchEqual f | branchNotEqual f =>
    exact congrArg Host.Outcome.next (ite_withHostView n pre (s.flagZ = true) rfl rfl)

end HostView

/-- Settles O24: the fetch reads memory and the configuration only, the advance and the instruction commute with the
host's view. -/
theorem cyclesAndOutputAreReadByTheHostOnly : Obligations.CyclesAndOutputAreReadByTheHostOnly := by
  intro s n pre
  have hfetch : fetch (s.withHostView n pre) s.pc = fetch s s.pc := fetch_congr rfl rfl s.pc
  simp only [step, run_withHostView, pc_withHostView, hfetch, cfg_withHostView, afterFetch_withHostView]
  cases s.run with
  | halted => rfl
  | faulted f => rfl
  | running =>
    cases fetch s s.pc with
    | error k => rfl
    | ok b => exact exec_withHostView s.afterFetch n pre (decode s.cfg.enc b)

end Sys2Proof.Machine

/-! PROOFS. The instructions that only write registers: system, arithmetic, logic, moves, jumps and compares
(41_system.md to 43_logic.md, 45_control_flow.md, 46_compare.md). -/

namespace Sys2Proof.Machine

section RegisterWrites
variable {s t : State} {f : Fields} {rA rB rC : RegId}

theorem sameBut_refl (s : State) : s.SameBut s [] :=
  ⟨rfl, rfl, rfl, rfl, fun _ => rfl, fun _ _ => rfl⟩

/-- One more register write adds that register to those that may have changed. -/
theorem getReg_setReg_frame {changed : List RegId} (h : ∀ j, j ∉ changed → t.getReg j = s.getReg j) (r : RegId)
    (v : Word) : ∀ j, j ∉ changed ++ [r] → (t.setReg r v).getReg j = s.getReg j := by
  intro j hj
  obtain ⟨hchanged, hr⟩ : j ∉ changed ∧ j ≠ r := by simpa using hj
  exact (getReg_setReg_other t r j v hr).trans (h j hchanged)

/-- The frame of one more register write. -/
theorem State.SameBut.setReg {changed : List RegId} (h : s.SameBut t changed) (r : RegId) (v : Word) :
    s.SameBut (t.setReg r v) (changed ++ [r]) := by
  obtain ⟨hcfg, hrun, hcycles, hout, hbytes, hregs⟩ := h
  exact ⟨hcfg, hrun, hcycles, hout, hbytes, getReg_setReg_frame hregs r v⟩

/-- A register write changes that register only. -/
theorem sameBut_setReg (s : State) (r : RegId) (v : Word) : s.SameBut (s.setReg r v) [r] :=
  (sameBut_refl s).setReg r v

theorem unary_ok (hA : regOf f.reg1 = some rA) (op : Word → Word) :
    s.unary f op = s.setReg rA (op (s.getReg rA)) :=
  withReg1_ok hA _

theorem binary_ok (hA : regOf f.reg1 = some rA) (hB : regOf f.reg2 = some rB) (hC : regOf f.reg3 = some rC)
    (op : Word → Word → Word) : s.binary f op = s.setReg rA (op (s.getReg rB) (s.getReg rC)) :=
  withReg3_ok hA hB hC _

theorem binaryImm_ok (hA : regOf f.reg1 = some rA) (hB : regOf f.reg2 = some rB) (op : Word → Word → Word) :
    s.binaryImm f op = s.setReg rA (op (s.getReg rB) f.operand) :=
  withReg2_ok hA hB _

/-- An outcome that is one register write, with what its register then holds. -/
theorem exists_next_setReg {o : Host.Outcome State Fault Refusal} {r : RegId} {v : Word}
    (h : o = .next (s.setReg r v)) : ∃ t, o = .next t ∧ s.SameBut t [r] ∧ t.getReg r = v :=
  ⟨_, h, sameBut_setReg s r v, getReg_setReg_same s r v⟩

theorem exec_unary (hA : regOf f.reg1 = some rA) (op : Word → Word) :
    ∃ t, (.next (s.unary f op) : Host.Outcome State Fault Refusal) = .next t ∧ s.SameBut t [rA] ∧
      t.getReg rA = op (s.getReg rA) :=
  exists_next_setReg (congrArg _ (unary_ok hA op))

theorem exec_binary (hA : regOf f.reg1 = some rA) (hB : regOf f.reg2 = some rB) (hC : regOf f.reg3 = some rC)
    (op : Word → Word → Word) :
    ∃ t, (.next (s.binary f op) : Host.Outcome State Fault Refusal) = .next t ∧ s.SameBut t [rA] ∧
      t.getReg rA = op (s.getReg rB) (s.getReg rC) :=
  exists_next_setReg (congrArg _ (binary_ok hA hB hC op))

theorem exec_binaryImm (hA : regOf f.reg1 = some rA) (hB : regOf f.reg2 = some rB) (op : Word → Word → Word) :
    ∃ t, (.next (s.binaryImm f op) : Host.Outcome State Fault Refusal) = .next t ∧ s.SameBut t [rA] ∧
      t.getReg rA = op (s.getReg rB) f.operand :=
  exists_next_setReg (congrArg _ (binaryImm_ok hA hB op))

end RegisterWrites

/-- A difference as a number, the minuend first. -/
theorem toNat_sub_mod (x y : Word) : (x - y).toNat = (x.toNat + (2 ^ 32 - y.toNat)) % 2 ^ 32 := by
  rw [BitVec.toNat_sub, Nat.add_comm]

/-- Settles O35: each of the three by its own rule. -/
theorem systemInstructionResults : Obligations.SystemInstructionResults := by
  intro f s
  exact ⟨rfl, ⟨s.halt, rfl, rfl, rfl, rfl, rfl, rfl, rfl⟩, ⟨_, rfl, faultsTo_raiseExec s _⟩⟩

/-- Settles O36: the register operation of each, as a number. -/
theorem incrementDecrementNegateResults : Obligations.IncrementDecrementNegateResults := by
  intro f s rA hA
  refine ⟨?increment, ?decrement, ?negate⟩
  case increment =>
    obtain ⟨t, hexec, hframe, hvalue⟩ := exec_unary (s := s) hA fun v => v + 1
    exact ⟨t, hexec, hframe, by rw [hvalue, BitVec.toNat_add]; rfl⟩
  case decrement =>
    obtain ⟨t, hexec, hframe, hvalue⟩ := exec_unary (s := s) hA fun v => v - 1
    exact ⟨t, hexec, hframe, by rw [hvalue, toNat_sub_mod]; rfl⟩
  case negate =>
    obtain ⟨t, hexec, hframe, hvalue⟩ := exec_unary (s := s) hA fun v => 0 - v
    exact ⟨t, hexec, hframe, by rw [hvalue, toNat_sub_mod]; simp⟩

/-- Settles O37: the three-register operation of each, as a number. -/
theorem addSubtractMultiplyResults : Obligations.AddSubtractMultiplyResults := by
  intro f s rA rB rC hA hB hC
  refine ⟨?add, ?subtract, ?multiply⟩
  case add =>
    obtain ⟨t, hexec, hframe, hvalue⟩ := exec_binary (s := s) hA hB hC fun b c => b + c
    exact ⟨t, hexec, hframe, by rw [hvalue, BitVec.toNat_add]⟩
  case subtract =>
    obtain ⟨t, hexec, hframe, hvalue⟩ := exec_binary (s := s) hA hB hC fun b c => b - c
    exact ⟨t, hexec, hframe, by rw [hvalue, toNat_sub_mod]⟩
  case multiply =>
    obtain ⟨t, hexec, hframe, hvalue⟩ := exec_binary (s := s) hA hB hC fun b c => b * c
    exact ⟨t, hexec, hframe, by rw [hvalue, BitVec.toNat_mul]⟩

/-- What Divide does with its fields in range (R155). -/
theorem exec_divide {f : Fields} {s : State} {rA rB rC : RegId} (hA : regOf f.reg1 = some rA)
    (hB : regOf f.reg2 = some rB) (hC : regOf f.reg3 = some rC) :
    exec (.divide f) s =
      .next (if s.getReg rC = 0 then s.raiseExec (.divideByZeroFault s.instrAddress)
        else s.setReg rA (s.getReg rB / s.getReg rC)) :=
  congrArg Host.Outcome.next (withReg3_ok hA hB hC _)

/-- Settles O38: the two sides of the test of the divisor. -/
theorem divideResults : Obligations.DivideResults := by
  intro f s rA rB rC hA hB hC
  rw [exec_divide hA hB hC]
  refine ⟨fun hdivisor => ?_, fun hdivisor => ?_⟩
  · rw [if_neg hdivisor]
    exact ⟨_, rfl, sameBut_setReg s rA _, by rw [getReg_setReg_same, BitVec.toNat_udiv]⟩
  · rw [if_pos hdivisor]
    exact ⟨_, rfl, faultsTo_raiseExec s _⟩

/-- Settles O39: the bits of each bitwise operation. -/
theorem logicResults : Obligations.LogicResults := by
  intro f s rA hA
  refine ⟨fun rB rC hB hC => ⟨?and, ?or, ?xor⟩, ?complement⟩
  case and =>
    obtain ⟨t, hexec, hframe, hvalue⟩ := exec_binary (s := s) hA hB hC fun b c => b &&& c
    exact ⟨t, hexec, hframe, fun n _ => by rw [hvalue, BitVec.getLsbD_and]⟩
  case or =>
    obtain ⟨t, hexec, hframe, hvalue⟩ := exec_binary (s := s) hA hB hC fun b c => b ||| c
    exact ⟨t, hexec, hframe, fun n _ => by rw [hvalue, BitVec.getLsbD_or]⟩
  case xor =>
    obtain ⟨t, hexec, hframe, hvalue⟩ := exec_binary (s := s) hA hB hC fun b c => b ^^^ c
    exact ⟨t, hexec, hframe, fun n _ => by rw [hvalue, BitVec.getLsbD_xor]⟩
  case complement =>
    obtain ⟨t, hexec, hframe, hvalue⟩ := exec_unary (s := s) hA fun v => ~~~v
    exact ⟨t, hexec, hframe, fun n hn => by rw [hvalue, BitVec.getLsbD_not, decide_eq_true hn, Bool.true_and]⟩

/-- Settles O40: the immediate operations as numbers; Move and LoadImmediate write what they are given. -/
theorem immediateAndMoveResults : Obligations.ImmediateAndMoveResults := by
  intro f s rA hA
  refine ⟨fun rB hB => ⟨?addImmediate, ?subtractImmediate, ?move⟩, ?loadImmediate⟩
  case addImmediate =>
    obtain ⟨t, hexec, hframe, hvalue⟩ := exec_binaryImm (s := s) hA hB fun b imm => b + imm
    exact ⟨t, hexec, hframe, by rw [hvalue, BitVec.toNat_add]⟩
  case subtractImmediate =>
    obtain ⟨t, hexec, hframe, hvalue⟩ := exec_binaryImm (s := s) hA hB fun b imm => b - imm
    exact ⟨t, hexec, hframe, by rw [hvalue, toNat_sub_mod]⟩
  case move => exact exists_next_setReg (congrArg Host.Outcome.next (withReg2_ok hA hB _))
  case loadImmediate => exact exists_next_setReg (congrArg Host.Outcome.next (withReg1_ok hA _))

/-- A state that differs in no register differs at most in those listed. -/
theorem sameBut_of_nil {s t : State} {changed : List RegId} (h : s.SameBut t []) : s.SameBut t changed := by
  obtain ⟨hcfg, hrun, hcycles, hout, hbytes, hregs⟩ := h
  exact ⟨hcfg, hrun, hcycles, hout, hbytes, fun r _ => hregs r List.not_mem_nil⟩

/-- A choice between a jump and going on (R233, R234). -/
theorem branch_result (s : State) (target : Word) (taken : Prop) [Decidable taken] :
    s.SameBut (if taken then s.setReg pcIx target else s) [pcIx] ∧
      (if taken then s.setReg pcIx target else s).pc = if taken then target else s.pc := by
  split
  · exact ⟨sameBut_setReg s pcIx target, pc_setReg_pc s target⟩
  · exact ⟨sameBut_of_nil (sameBut_refl s), rfl⟩

/-- Settles O52: the branch on `Z`, and its mirror. -/
theorem jumpAndBranchResults : Obligations.JumpAndBranchResults := by
  intro f s
  refine ⟨⟨_, rfl, sameBut_setReg s pcIx f.operand, pc_setReg_pc s f.operand⟩,
    ⟨_, rfl, branch_result s f.operand (s.flagZ = true)⟩, ⟨_, rfl, ?_⟩⟩
  have hmirror := branch_result s f.operand (¬ s.flagZ = true)
  rw [ite_not, ite_not] at hmirror
  exact hmirror

/-! The compares. -/

/-- Bit 31 of a word is set exactly when the word is at least half of the range. -/
theorem getLsbD_31_iff (v : Word) : v.getLsbD 31 = true ↔ 2 ^ 31 ≤ v.toNat := by
  have hmsb : v.msb = v.getLsbD 31 := BitVec.msb_eq_getLsbD_last v
  rw [← hmsb, BitVec.msb_eq_decide, decide_eq_true_iff]

/-- The word a compare writes: each flag at its place, and 0 in the other bits (R250, D9). -/
theorem compareFlags_bits {c : Config} (hflags : c.FlagBitsValid) (m v : Word) :
    ((compareFlags c m v).getLsbD c.zBit = true ↔ m = v) ∧
      ((compareFlags c m v).getLsbD c.cBit = true ↔ m.toNat < v.toNat) ∧
      ((compareFlags c m v).getLsbD c.nBit = true ↔ 2 ^ 31 ≤ (m.toNat + (2 ^ 32 - v.toNat)) % 2 ^ 32) ∧
      ∀ n, n ≠ c.zBit.val → n ≠ c.nBit.val → n ≠ c.cBit.val → (compareFlags c m v).getLsbD n = false := by
  obtain ⟨hzn, hzc, hnc⟩ := hflags
  have hzn' := Fin.val_ne_of_ne hzn
  have hzc' := Fin.val_ne_of_ne hzc
  have hnc' := Fin.val_ne_of_ne hnc
  simp only [getLsbD_compareFlags]
  refine ⟨?zero, ?carry, ?negative, fun n hz hn hc => ?_⟩
  case zero =>
    have hdifference : m - v = 0 ↔ m = v := sub_eq_zero
    simpa [hzn', hzc'] using hdifference
  case carry => simp [hzc'.symm, hnc'.symm]
  case negative => rw [← toNat_sub_mod, ← getLsbD_31_iff]; simp [hzn'.symm, hnc']
  · simp [hz, hn, hc]

/-- What either compare does with its fields in range (R251, R252). -/
theorem setFlags_result (s : State) (m v : Word) :
    s.SameBut (s.setFlags m v) [srIx] ∧ (s.setFlags m v).sr = compareFlags s.cfg m v :=
  ⟨sameBut_setReg s srIx _, sr_setFlags s m v⟩

/-- Settles O56: both compares are `setFlags`, whose word `compareFlags_bits` reads. -/
theorem compareResults : Obligations.CompareResults := by
  intro f s rA v hflags hA i hi
  have hexec : exec i s = .next (s.setFlags (s.getReg rA) v) := by
    rcases hi with ⟨rB, hB, rfl, rfl⟩ | ⟨rfl, rfl⟩
    · exact congrArg Host.Outcome.next (withReg2_ok hA hB _)
    · exact congrArg Host.Outcome.next (withReg1_ok hA _)
  obtain ⟨hframe, hsr⟩ := setFlags_result s (s.getReg rA) v
  refine ⟨_, hexec, hframe, ?_⟩
  rw [hsr]
  exact compareFlags_bits hflags (s.getReg rA) v

end Sys2Proof.Machine

/-! PROOFS. The loads, the stores and the stack (44_load_store.md R201 to R210, 45_control_flow.md R231, R232). -/

namespace Sys2Proof.Machine

/-! Reads that complete (R55, R60, R61). -/

section Reads
variable {s : State} {a v : Word} {n : Nat} {f : Fields} {rA : RegId} {k : FaultCause}

/-- A doubleword read that the statements describe by its number is answered with that number. -/
theorem exists_memReadWord (h : s.cfg.Valid) (hreads : s.ReadsDoubleword a n) :
    ∃ v, memReadWord s a = .ok v ∧ v.toNat = n := by
  rcases hreads with ⟨hmem, hal, rfl⟩ | ⟨hzero, hbase | hfour, rfl⟩
  · exact ⟨_, memReadWord_mainMemory h hmem hal, toNat_wordAt s a.toNat⟩
  · subst hbase
    exact ⟨0, memReadWord_console_zero h hzero (inConsole_base s.cfg) (consoleBase_mod_four h), rfl⟩
  · subst hfour
    exact ⟨0, memReadWord_console_zero h hzero (inConsole_add h (n := 4) (by omega)) (consoleBase_add_four_mod_four h),
      rfl⟩

/-- A byte read that the statements describe by its number is answered with that number. -/
theorem exists_memReadByte (h : s.cfg.Valid) (hreads : s.ReadsByte a n) :
    ∃ b, memReadByte s a = .ok b ∧ b.toNat = n := by
  rcases hreads with ⟨hmem, rfl⟩ | ⟨hcon, hbase | hzero, rfl⟩
  · exact ⟨_, memReadByte_mainMemory h hmem, rfl⟩
  · subst hbase
    exact ⟨0, (memReadByte_console h hcon).trans (deviceRead_con_base s), rfl⟩
  · exact ⟨0, (memReadByte_console h hcon).trans (deviceRead_con_zero hzero a), rfl⟩

/-! What the shared operations leave once the access has answered. -/

theorem loadWord_ok (h : memReadWord s a = .ok v) (rA : RegId) : s.loadWord rA a = s.setReg rA v := by
  rw [State.loadWord, h, orRaise_ok]

theorem loadWord_error (h : memReadWord s a = .error k) (rA : RegId) : s.loadWord rA a = s.raiseExec k := by
  rw [State.loadWord, h, orRaise_error]

theorem loadByte_ok {b : Byte} (h : memReadByte s a = .ok b) (rA : RegId) :
    s.loadByte rA a = s.setReg rA (b.setWidth 32) := by
  rw [State.loadByte, h, orRaise_ok]

theorem loadByte_error (h : memReadByte s a = .error k) (rA : RegId) : s.loadByte rA a = s.raiseExec k := by
  rw [State.loadByte, h, orRaise_error]

theorem storeWord_ok {t : State} (h : memWriteWord s a (s.getReg rA) = .ok t) : s.storeWord rA a = t := by
  rw [State.storeWord, h, orRaise_ok, id]

theorem storeWord_error (h : memWriteWord s a (s.getReg rA) = .error k) : s.storeWord rA a = s.raiseExec k := by
  rw [State.storeWord, h, orRaise_error]

theorem storeByte_ok {t : State} (h : memWriteByte s a ((s.getReg rA).setWidth 8) = .ok t) :
    s.storeByte rA a = t := by
  rw [State.storeByte, h, orRaise_ok, id]

theorem storeByte_error (h : memWriteByte s a ((s.getReg rA).setWidth 8) = .error k) :
    s.storeByte rA a = s.raiseExec k := by
  rw [State.storeByte, h, orRaise_error]

theorem popReg_ok (h : memReadWord s s.sp = .ok v) (dst : RegId) :
    popReg s dst = (s.setReg dst v).setReg spIx ((s.setReg dst v).sp + 4) := by
  rw [popReg, h, orRaise_ok]

theorem popReg_error (h : memReadWord s s.sp = .error k) (dst : RegId) : popReg s dst = s.raiseExec k := by
  rw [popReg, h, orRaise_error]

/-! The execute phase of each form, its register fields in range. -/

theorem exec_load {rB : RegId} (hA : regOf f.reg1 = some rA) (hB : regOf f.reg2 = some rB) :
    exec (.load f) s = .next (s.loadWord rA (s.getReg rB)) := congrArg Host.Outcome.next (withReg2_ok hA hB _)

theorem exec_loadByte {rB : RegId} (hA : regOf f.reg1 = some rA) (hB : regOf f.reg2 = some rB) :
    exec (.loadByte f) s = .next (s.loadByte rA (s.getReg rB)) := congrArg Host.Outcome.next (withReg2_ok hA hB _)

theorem exec_loadDirect (hA : regOf f.reg1 = some rA) :
    exec (.loadDirect f) s = .next (s.loadWord rA f.operand) := congrArg Host.Outcome.next (withReg1_ok hA _)

theorem exec_loadDirectByte (hA : regOf f.reg1 = some rA) :
    exec (.loadDirectByte f) s = .next (s.loadByte rA f.operand) := congrArg Host.Outcome.next (withReg1_ok hA _)

theorem exec_store {rB : RegId} (hA : regOf f.reg1 = some rA) (hB : regOf f.reg2 = some rB) :
    exec (.store f) s = .next (s.storeWord rA (s.getReg rB)) := congrArg Host.Outcome.next (withReg2_ok hA hB _)

theorem exec_storeByte {rB : RegId} (hA : regOf f.reg1 = some rA) (hB : regOf f.reg2 = some rB) :
    exec (.storeByte f) s = .next (s.storeByte rA (s.getReg rB)) := congrArg Host.Outcome.next (withReg2_ok hA hB _)

theorem exec_storeDirect (hA : regOf f.reg1 = some rA) :
    exec (.storeDirect f) s = .next (s.storeWord rA f.operand) := congrArg Host.Outcome.next (withReg1_ok hA _)

theorem exec_storeDirectByte (hA : regOf f.reg1 = some rA) :
    exec (.storeDirectByte f) s = .next (s.storeByte rA f.operand) := congrArg Host.Outcome.next (withReg1_ok hA _)

theorem exec_push (hA : regOf f.reg1 = some rA) : exec (.push f) s = .next (pushReg s rA id) :=
  congrArg Host.Outcome.next (withReg1_ok hA _)

theorem exec_pop (hA : regOf f.reg1 = some rA) : exec (.pop f) s = .next (popReg s rA) :=
  congrArg Host.Outcome.next (withReg1_ok hA _)

theorem exec_call (f : Fields) (s : State) :
    exec (.call f) s = .next (pushReg s pcIx fun u => u.setReg pcIx f.operand) := rfl

theorem exec_ret (f : Fields) (s : State) : exec (.ret f) s = .next (popReg s pcIx) := rfl

end Reads

/-! Loads. -/

/-- Settles O41: the read is answered, and its doubleword written. -/
theorem loadDoublewordResults : Obligations.LoadDoublewordResults := by
  intro f s rA a n hvalid hA hreads
  obtain ⟨v, hread, rfl⟩ := exists_memReadWord hvalid hreads
  have hload : s.SameBut (s.loadWord rA a) [rA] ∧ ((s.loadWord rA a).getReg rA).toNat = v.toNat := by
    rw [loadWord_ok hread]
    exact ⟨sameBut_setReg s rA v, congrArg _ (getReg_setReg_same s rA v)⟩
  refine ⟨fun rB hB haddr => ⟨_, exec_load hA hB, ?_⟩, fun haddr => ⟨_, exec_loadDirect hA, ?_⟩⟩ <;> rwa [haddr]

/-- Settles O42: the read is answered, and its byte written with zeros above. -/
theorem loadByteResults : Obligations.LoadByteResults := by
  intro f s rA a n hvalid hA hreads
  obtain ⟨b, hread, rfl⟩ := exists_memReadByte hvalid hreads
  have hload : s.SameBut (s.loadByte rA a) [rA] ∧ ((s.loadByte rA a).getReg rA).toNat = b.toNat := by
    rw [loadByte_ok hread]
    refine ⟨sameBut_setReg s rA _, ?_⟩
    rw [getReg_setReg_same, BitVec.toNat_setWidth_of_le (by omega)]
  refine ⟨fun rB hB haddr => ⟨_, exec_loadByte hA hB, ?_⟩,
    fun haddr => ⟨_, exec_loadDirectByte hA, ?_⟩⟩ <;> rwa [haddr]

/-- Settles O43: in each form the fault comes before the write. -/
theorem faultingReadsWriteNothing : Obligations.FaultingReadsWriteNothing := by
  intro f s rA k hA
  have hraise := faultsTo_raiseExec s k
  refine ⟨fun rB hB => ⟨fun hread => ?_, fun hread => ?_⟩, fun hread => ?_, fun hread => ?_, fun hread => ?_,
    fun hread g => ?_⟩
  · exact ⟨_, exec_load hA hB, by rwa [loadWord_error hread]⟩
  · exact ⟨_, exec_loadByte hA hB, by rwa [loadByte_error hread]⟩
  · exact ⟨_, exec_loadDirect hA, by rwa [loadWord_error hread]⟩
  · exact ⟨_, exec_loadDirectByte hA, by rwa [loadByte_error hread]⟩
  · exact ⟨_, exec_pop hA, by rwa [popReg_error hread]⟩
  · exact ⟨_, exec_ret g s, by rwa [popReg_error hread]⟩

/-! Stores. -/

/-- Settles O44: an aligned doubleword of Main Memory is stored and read back. -/
theorem storeDoublewordResults : Obligations.StoreDoublewordResults := by
  intro f s rA a hvalid hA hmem hal
  have hstore : s.SameButStore (s.storeWord rA a) [] a.toNat 4 ∧
      (s.storeWord rA a).numberAt a.toNat = (s.getReg rA).toNat := by
    rw [storeWord_ok (memWriteWord_mainMemory hvalid hmem hal (s.getReg rA))]
    exact ⟨sameButStore_putWord s a.toNat _, numberAt_putWord s a.toNat _⟩
  refine ⟨fun rB hB haddr => ⟨_, exec_store hA hB, ?_⟩, fun haddr => ⟨_, exec_storeDirect hA, ?_⟩⟩ <;> rwa [haddr]

/-- Settles O45: the low byte is stored and read back. -/
theorem storeByteResults : Obligations.StoreByteResults := by
  intro f s rA a hvalid hA hmem
  have hstore : s.SameButStore (s.storeByte rA a) [] a.toNat 1 ∧
      ((s.storeByte rA a).byteAt a.toNat).toNat = (s.getReg rA).toNat % 256 := by
    rw [storeByte_ok (memWriteByte_mainMemory hvalid hmem _)]
    refine ⟨sameButStore_stored s a.toNat [_], ?_⟩
    rw [byteAt_setMem, Memory.read_write_same]
    exact BitVec.toNat_setWidth _ _
  refine ⟨fun rB hB haddr => ⟨_, exec_storeByte hA hB, ?_⟩,
    fun haddr => ⟨_, exec_storeDirectByte hA, ?_⟩⟩ <;> rwa [haddr]

/-- The doubleword store to the console port (R62). -/
theorem storeWord_port {s : State} (hvalid : s.cfg.Valid) (rA : RegId) :
    s.storeWord rA s.cfg.consoleBase = s.emit (wordByte (s.getReg rA) 0) := by
  apply storeWord_ok
  rw [memWriteWord_console hvalid (inConsole_base s.cfg) (consoleBase_mod_four hvalid), if_pos rfl]

/-- The byte store to the console port (R62, D7). -/
theorem storeByte_port {s : State} (hvalid : s.cfg.Valid) (rA : RegId) :
    s.storeByte rA s.cfg.consoleBase = s.emit ((s.getReg rA).setWidth 8) := by
  apply storeByte_ok
  rw [memWriteByte_console hvalid (inConsole_base s.cfg), if_pos rfl]

/-- Settles O46: each form is `storeWord` or `storeByte` at the port. -/
theorem consoleStoresOutputOneByte : Obligations.ConsoleStoresOutputOneByte := by
  intro f s rA hvalid hA i hi
  have word := storeWord_port hvalid rA
  have byte := storeByte_port hvalid rA
  have hlow : ((s.getReg rA).setWidth 8).toNat = (s.getReg rA).toNat % 256 := BitVec.toNat_setWidth _ _
  have hhigh := toNat_wordByte_zero (s.getReg rA)
  rcases hi with ⟨rB, hB, haddr, rfl | rfl⟩ | ⟨haddr, rfl | rfl⟩
  · rw [exec_store hA hB, haddr, word]
    exact ⟨_, _, rfl, rfl, rfl, rfl, rfl, rfl, rfl, hhigh⟩
  · rw [exec_storeByte hA hB, haddr, byte]
    exact ⟨_, _, rfl, rfl, rfl, rfl, rfl, rfl, rfl, hlow⟩
  · rw [exec_storeDirect hA, haddr, word]
    exact ⟨_, _, rfl, rfl, rfl, rfl, rfl, rfl, rfl, hhigh⟩
  · rw [exec_storeDirectByte hA, haddr, byte]
    exact ⟨_, _, rfl, rfl, rfl, rfl, rfl, rfl, rfl, hlow⟩

/-- Settles O47: in each form the fault is all that happens. -/
theorem faultingStoresWriteNothing : Obligations.FaultingStoresWriteNothing := by
  intro f s rA k hA
  have hraise := faultsTo_raiseExec s k
  refine ⟨fun rB hB => ⟨fun hwrite => ?_, fun hwrite => ?_⟩, fun hwrite => ?_, fun hwrite => ?_⟩
  · exact ⟨_, exec_store hA hB, by rwa [storeWord_error hwrite]⟩
  · exact ⟨_, exec_storeByte hA hB, by rwa [storeByte_error hwrite]⟩
  · exact ⟨_, exec_storeDirect hA, by rwa [storeWord_error hwrite]⟩
  · exact ⟨_, exec_storeDirectByte hA, by rwa [storeByte_error hwrite]⟩

/-! The stack. -/

section Stack
variable {s t : State} {k : FaultCause}

/-- The state in which a push stores: `sp` decremented by 4, nothing else changed (R209, D10). -/
def State.lowerSp (s : State) : State := s.setReg spIx (s.sp - 4)

theorem sp_lowerSp (s : State) : s.lowerSp.sp = s.sp - 4 := sp_setReg_sp s (s.sp - 4)

theorem pc_lowerSp (s : State) : s.lowerSp.pc = s.pc := pc_setReg_sp s (s.sp - 4)

/-- The register a push stores is read after the decrement (D10). -/
theorem getReg_lowerSp (s : State) (r : RegId) :
    s.lowerSp.getReg r = if r = spIx then s.sp - 4 else s.getReg r := getReg_setReg s spIx r (s.sp - 4)

theorem pushReg_ok {src : RegId} (h : memWriteWord s.lowerSp (s.sp - 4) (s.lowerSp.getReg src) = .ok t)
    (go : State → State) : pushReg s src go = go t := by
  rw [← sp_lowerSp] at h
  rw [pushReg, ← State.lowerSp, h, orRaise_ok]

theorem pushReg_error {src : RegId} (h : memWriteWord s.lowerSp (s.sp - 4) (s.lowerSp.getReg src) = .error k)
    (go : State → State) : pushReg s src go = s.lowerSp.raiseExec k := by
  rw [← sp_lowerSp] at h
  rw [pushReg, ← State.lowerSp, h, orRaise_error]

/-- A push to Main Memory (R209). -/
theorem pushReg_mainMemory (hvalid : s.cfg.Valid) (hmem : InMainMemory s.cfg (s.sp - 4).toNat 1)
    (hal : (s.sp - 4).toNat % 4 = 0) (src : RegId) (go : State → State) :
    pushReg s src go = go (s.lowerSp.putWord (s.sp - 4).toNat (s.lowerSp.getReg src)) :=
  pushReg_ok (memWriteWord_mainMemory (s := s.lowerSp) hvalid hmem hal _) go

/-- A push to the console port (R62). -/
theorem pushReg_port (hvalid : s.cfg.Valid) (hport : s.sp - 4 = s.cfg.consoleBase) (src : RegId)
    (go : State → State) : pushReg s src go = go (s.lowerSp.emit (wordByte (s.lowerSp.getReg src) 0)) := by
  have hcon : InConsole s.cfg (s.sp - 4).toNat := by rw [hport]; exact inConsole_base s.cfg
  have hal : (s.sp - 4).toNat % 4 = 0 := by rw [hport]; exact consoleBase_mod_four hvalid
  exact pushReg_ok ((memWriteWord_console (s := s.lowerSp) hvalid hcon hal _).trans (if_pos hport)) go

/-- The frame of one more register write after a store. -/
theorem State.SameButStore.setReg {changed : List RegId} {a n : Nat} (h : s.SameButStore t changed a n) (r : RegId)
    (v : Word) : s.SameButStore (t.setReg r v) (changed ++ [r]) a n := by
  obtain ⟨hcfg, hrun, hcycles, hout, hbytes, hregs⟩ := h
  exact ⟨hcfg, hrun, hcycles, hout, hbytes, getReg_setReg_frame hregs r v⟩

/-- The frame of one more register write after a byte of output. -/
theorem State.SameButOutput.setReg {changed : List RegId} {b : Byte} (h : s.SameButOutput t changed b) (r : RegId)
    (v : Word) : s.SameButOutput (t.setReg r v) (changed ++ [r]) b := by
  obtain ⟨hcfg, hrun, hcycles, hout, hbytes, hregs⟩ := h
  exact ⟨hcfg, hrun, hcycles, hout, hbytes, getReg_setReg_frame hregs r v⟩

theorem sameButOutput_emit (s : State) (b : Byte) : s.SameButOutput (s.emit b) [] b :=
  ⟨rfl, rfl, rfl, rfl, fun _ => rfl, fun _ _ => rfl⟩

/-- What a push to Main Memory leaves: `sp` and the doubleword have changed. -/
theorem sameButStore_push (s : State) (a : Nat) (v : Word) : s.SameButStore (s.lowerSp.putWord a v) [spIx] a 4 :=
  (sameButStore_putWord s a v).setReg spIx (s.sp - 4)

/-- What a push to the port leaves: `sp` has changed and a byte is output. -/
theorem sameButOutput_push (s : State) (b : Byte) : s.SameButOutput (s.lowerSp.emit b) [spIx] b :=
  (sameButOutput_emit s b).setReg spIx (s.sp - 4)

/-- A push whose store faults changes `sp` and the run state only (R303, D20). -/
theorem faultsTo_lowerSp (s : State) (k : FaultCause) :
    s.FaultsTo (s.lowerSp.raiseExec k) k [spIx] ∧ (s.lowerSp.raiseExec k).sp = s.sp - 4 := by
  refine ⟨⟨?_, rfl, rfl, rfl, fun _ => rfl, fun r hr => ?_⟩, sp_lowerSp s⟩
  · rw [run_raiseExec, State.lowerSp, instrAddress_setReg_sp]
    rfl
  · exact getReg_setReg_other s spIx r _ (by simpa using hr)

end Stack

/-- Settles O48: the push to Main Memory and to the port, with the register read after the decrement. -/
theorem pushResults : Obligations.PushResults := by
  intro f s rA hvalid hA
  rw [exec_push hA, ← getReg_lowerSp]
  refine ⟨fun hmem hal => ?_, fun hport => ?_⟩
  · rw [pushReg_mainMemory hvalid hmem hal]
    exact ⟨_, rfl, sameButStore_push s _ _, sp_lowerSp s, numberAt_putWord s.lowerSp _ _⟩
  · rw [pushReg_port hvalid hport]
    exact ⟨_, _, rfl, sameButOutput_push s _, sp_lowerSp s, toNat_wordByte_zero _⟩

/-- When a doubleword write faults, for any value (R67, D14, D18). -/
theorem memWriteWord_faults {s : State} {a : Word} {k : FaultCause}
    (h : (Unmapped s.cfg a ∧ k = .addressFault a) ∨
      (¬ Unmapped s.cfg a ∧ a.toNat % 4 ≠ 0 ∧ k = .alignmentFault a 4) ∨
      (s.cfg.Valid ∧ a = s.cfg.consoleBase + 4 ∧ k = .addressFault a)) (v : Word) :
    memWriteWord s a v = .error k := by
  rcases h with ⟨hunmapped, rfl⟩ | ⟨hmapped, hal, rfl⟩ | ⟨hvalid, rfl, rfl⟩
  · exact memWriteWord_of_check (selectAligned_unmapped hunmapped) v
  · exact memWriteWord_of_check (selectAligned_misaligned hmapped hal) v
  · have hcon : InConsole s.cfg (s.cfg.consoleBase + 4).toNat := inConsole_add hvalid (n := 4) (by omega)
    have hne : s.cfg.consoleBase + 4 ≠ s.cfg.consoleBase := consoleBase_add_ne hvalid (n := 4) (by omega) (by omega)
    rw [memWriteWord_console hvalid hcon (consoleBase_add_four_mod_four hvalid), if_neg hne]

/-- Settles O49: `memWriteWord_faults` in the state with `sp` decremented. -/
theorem faultingPushAndCallLeaveSpDecremented : Obligations.FaultingPushAndCallLeaveSpDecremented := by
  intro f s k hfault
  have hwrite := memWriteWord_faults (s := s.lowerSp) hfault
  refine ⟨fun rA hA => ⟨_, exec_push hA, ?_⟩, ⟨_, exec_call f s, ?_⟩⟩ <;> rw [pushReg_error (hwrite _)] <;>
    exact faultsTo_lowerSp s k

/-- What a pop leaves once its read is answered (R210, D10). -/
theorem popReg_result {s : State} {v : Word} (hread : memReadWord s s.sp = .ok v) (dst : RegId) :
    s.SameBut (popReg s dst) [dst, spIx] ∧
      (dst ≠ spIx → (popReg s dst).getReg dst = v ∧ (popReg s dst).sp = s.sp + 4) ∧
      (dst = spIx → (popReg s dst).sp = v + 4) := by
  rw [popReg_ok hread]
  refine ⟨(sameBut_setReg s dst v).setReg spIx _, fun hne => ⟨?_, ?_⟩, fun heq => ?_⟩
  · rw [getReg_setReg_other _ _ _ _ hne, getReg_setReg_same]
  · rw [sp_setReg_sp, sp_setReg, if_neg hne]
  · rw [sp_setReg_sp, sp_setReg, if_pos heq]

/-- Settles O50: the read is answered, and `popReg_result`. -/
theorem popResults : Obligations.PopResults := by
  intro f s rA n hvalid hA hreads
  obtain ⟨v, hread, rfl⟩ := exists_memReadWord hvalid hreads
  obtain ⟨hframe, hother, hsp⟩ := popReg_result hread rA
  refine ⟨_, exec_pop hA, hframe, fun hne => ?_, fun heq => ?_⟩
  · obtain ⟨hvalue, hsp⟩ := hother hne
    exact ⟨congrArg _ hvalue, hsp⟩
  · rw [hsp heq, BitVec.toNat_add]
    rfl

/-- Settles O54: Return pops into `pc`. -/
theorem returnResults : Obligations.ReturnResults := by
  intro f s n hvalid hreads
  obtain ⟨v, hread, rfl⟩ := exists_memReadWord hvalid hreads
  obtain ⟨hframe, hother, -⟩ := popReg_result hread pcIx
  obtain ⟨hpc, hsp⟩ := hother (by decide)
  exact ⟨_, exec_ret f s, hframe, congrArg _ hpc, hsp⟩

/-- Settles O53: a push of `pc`, then the jump. -/
theorem callResults : Obligations.CallResults := by
  intro f s hvalid
  have hpc : s.lowerSp.getReg pcIx = s.pc := pc_lowerSp s
  rw [exec_call]
  refine ⟨fun hmem hal => ?_, fun hport => ?_⟩
  · rw [pushReg_mainMemory hvalid hmem hal, hpc]
    refine ⟨_, rfl, (sameButStore_push s _ _).setReg pcIx _, ?_, pc_setReg_pc _ _, numberAt_putWord s.lowerSp _ _⟩
    rw [sp_setReg_pc]
    exact sp_lowerSp s
  · rw [pushReg_port hvalid hport, hpc]
    refine ⟨_, _, rfl, (sameButOutput_push s _).setReg pcIx _, ?_, pc_setReg_pc _ _, toNat_wordByte_zero _⟩
    rw [sp_setReg_pc]
    exact sp_lowerSp s

/-- Settles O51: the pop reads the doubleword that the push stored, and 4 is added to the decremented `sp`. -/
theorem pushThenPopRestores : Obligations.PushThenPopRestores := by
  intro f g s rA hvalid hf hg hne hmem hal
  obtain ⟨hpushMemory, -⟩ := pushResults f s rA hvalid hf
  obtain ⟨t, hpush, ⟨hcfg, -, -, -, -, hregs⟩, hsp, hnumber⟩ := hpushMemory hmem hal
  rw [if_neg hne] at hnumber
  have hsp' : t.afterFetch.sp = s.sp - 4 := (getReg_afterFetch t spIx (by decide)).trans hsp
  have hcfg' : t.afterFetch.cfg = s.cfg := (cfg_afterFetch t).trans hcfg
  have hreads : t.afterFetch.ReadsDoubleword t.afterFetch.sp (s.getReg rA).toNat := by
    rw [hsp']
    exact .inl ⟨hcfg' ▸ hmem, hal, hnumber.symm⟩
  obtain ⟨u, hpop, ⟨-, -, -, -, -, hregs'⟩, hother, -⟩ := popResults g t.afterFetch rA _ (hcfg' ▸ hvalid) hg hreads
  obtain ⟨hvalue, hspu⟩ := hother hne
  have hspRestored : u.sp = s.sp := by rw [hspu, hsp', sub_add_cancel]
  refine ⟨t, u, hpush, hpop, BitVec.eq_of_toNat_eq hvalue, hspRestored, fun r hrA hpc => ?_⟩
  by_cases hr : r = spIx
  · subst hr
    exact hspRestored
  · calc u.getReg r = t.afterFetch.getReg r := hregs' r (by simp [hrA, hr])
      _ = t.getReg r := getReg_afterFetch t r hpc
      _ = s.getReg r := hregs r (by simp [hr])

/-- Settles O55: the word under `sp` is the one that the Call stored. -/
theorem callThenReturnResumes : Obligations.CallThenReturnResumes := by
  intro f g s w hvalid hmem hal
  obtain ⟨hcallMemory, -⟩ := callResults f s hvalid
  obtain ⟨t, hcall, ⟨hcfg, -⟩, hsp, -, hnumber⟩ := hcallMemory hmem hal
  refine ⟨t, hcall, fun hwcfg hwsp hbytes => ?_⟩
  have hwcfg' : w.cfg = s.cfg := hwcfg.trans hcfg
  have hfirst : w.byteAt t.sp.toNat = t.byteAt t.sp.toNat := hbytes 0 (by omega)
  have hstacked : w.numberAt t.sp.toNat = t.numberAt t.sp.toNat := by
    simp only [State.numberAt, hfirst, hbytes 1 (by omega), hbytes 2 (by omega), hbytes 3 (by omega)]
  have hreads : w.ReadsDoubleword w.sp s.pc.toNat := by
    rw [hsp, hnumber] at hstacked
    rw [hwsp, hsp]
    exact .inl ⟨hwcfg' ▸ hmem, hal, hstacked.symm⟩
  obtain ⟨u, hret, -, hpc, hspu⟩ := returnResults g w _ (hwcfg' ▸ hvalid) hreads
  exact ⟨u, hret, BitVec.eq_of_toNat_eq hpc, by rw [hspu, hwsp, hsp, sub_add_cancel]⟩

end Sys2Proof.Machine

/-! PROOFS. Reset, the launch and the run (10_state.md R36, 70_reset_and_hazards.md, 40_fsm.md R125 to R130). -/

namespace Sys2Proof.Machine

/-! Reset and launch. -/

/-- The registers at reset (R36). -/
theorem getReg_resetWith (c : Config) (m : Memory) (r : RegId) :
    (State.resetWith c m).getReg r = if r = pcIx then c.programBase else 0 := by
  have hzero : (⟨c, Vector.replicate 19 0, .running, 0, m, []⟩ : State).getReg r = 0 := by
    simp [State.getReg, Vector.get_eq_getElem]
  have hset := getReg_setReg ⟨c, Vector.replicate 19 0, .running, 0, m, []⟩ pcIx r c.programBase
  rw [hzero] at hset
  exact hset

/-- Settles O58: the registers by `getReg_resetWith`; every flag is a bit of `sr`, which is 0. -/
theorem resetLeavesTheSpecsValues : Obligations.ResetLeavesTheSpecsValues := by
  have hregs := getReg_resetWith exampleConfig []
  rw [← reset_eq_resetWith] at hregs
  have hsr : State.reset.sr = 0 := (hregs srIx).trans (if_neg (by decide))
  refine ⟨hregs, rfl, rfl, rfl, ?_, ?_, ?_⟩
  · rw [State.flagZ, hsr]
    exact BitVec.getLsbD_zero
  · rw [State.flagN, hsr]
    exact BitVec.getLsbD_zero
  · rw [State.flagC, hsr]
    exact BitVec.getLsbD_zero

/-- The host's write of bytes that do not pass the top of the address space stores them in order (R68). -/
theorem writeAllTo_memEntry (c : Config) (bs : List Byte) (s : State) (a : Word)
    (h : a.toNat + bs.length ≤ 2 ^ 32) :
    writeAllTo (memEntry c) s a bs = .ok (s.setMem (s.mem.writeList a.toNat bs)) := by
  induction bs generalizing s a with
  | nil => rfl
  | cons b bs ih =>
    rw [writeAllTo, deviceWrite_mem]
    cases bs with
    | nil => rfl
    | cons b' bs =>
      simp only [List.length_cons] at h
      have hnext : (a + 1).toNat = a.toNat + 1 := toNat_add_small (n := 1) (by omega)
      have := ih (s.setMem (s.mem.write a.toNat b)) (a + 1) (by rw [hnext, List.length_cons]; omega)
      rw [hnext] at this
      exact this

/-- The host's write of a program that fits in Main Memory, at the program base (R68, R331). -/
theorem writeAll_program {c : Config} (h : c.Valid) {s : State} (hs : s.cfg = c) {program : List Byte}
    (hfits : program.length ≤ c.memSize) :
    writeAll s program c.programBase = .ok (s.setMem (s.mem.writeList c.programBase.toNat program)) := by
  subst hs
  have hlast := memEntry_last h
  obtain ⟨-, -, -, -, hsize, -, htop, -⟩ := id h
  have hbase : InMainMemory s.cfg s.cfg.programBase.toNat 1 := ⟨le_refl _, by simp only [Config.programBase]; omega⟩
  have hroom : ¬ (memEntry s.cfg).last.toNat + 1 < s.cfg.programBase.toNat + program.length := by
    rw [hlast, Config.programBase]
    omega
  simp only [writeAll, hostSelect, select_mainMemory h hbase, if_neg hroom]
  exact writeAllTo_memEntry s.cfg program s _ (by rw [Config.programBase]; omega)

/-- The state a launch leaves (R36, R330, R331). -/
def State.loaded (c : Config) (initMem : Memory) (program : List Byte) : State :=
  (State.resetWith c initMem).setMem (initMem.writeList c.programBase.toNat program)

/-- What a launch answers: the state loaded where the three checks pass, and an error elsewhere. -/
theorem launch_cases (c : Config) (initMem : Memory) (program : List Byte) :
    ((c.Valid ∧ initMem.wf ∧ Memory.inRange c initMem ∧ program.length ≤ c.memSize) ∧
        State.launch c initMem program = .ok (State.loaded c initMem program)) ∨
      (¬ (c.Valid ∧ initMem.wf ∧ Memory.inRange c initMem ∧ program.length ≤ c.memSize) ∧
        ∃ k, State.launch c initMem program = .error k) := by
  unfold State.launch
  by_cases hvalid : c.Valid
  · by_cases hinit : initMem.wf ∧ Memory.inRange c initMem
    · by_cases hfits : c.memSize < program.length
      · refine .inr ⟨fun ⟨_, _, _, hle⟩ => by omega, .programTooLarge, ?_⟩
        rw [if_neg (not_not.mpr hvalid), if_neg (not_not.mpr hinit), if_pos hfits]
      · refine .inl ⟨⟨hvalid, hinit.1, hinit.2, by omega⟩, ?_⟩
        rw [if_neg (not_not.mpr hvalid), if_neg (not_not.mpr hinit), if_neg hfits]
        exact writeAll_program hvalid rfl (by omega)
    · refine .inr ⟨fun ⟨_, hwf, hrange, _⟩ => hinit ⟨hwf, hrange⟩, .badInitialMemory, ?_⟩
      rw [if_neg (not_not.mpr hvalid), if_pos hinit]
  · exact .inr ⟨fun ⟨h, _⟩ => hvalid h, .badConfiguration, if_pos hvalid⟩

/-- Settles O57: `launch_cases`, and the fields of the state loaded. -/
theorem launchLeavesTheResetState : Obligations.LaunchLeavesTheResetState := by
  intro c initMem program
  rcases launch_cases c initMem program with ⟨hchecks, hlaunch⟩ | ⟨hchecks, k, hlaunch⟩ <;> rw [hlaunch]
  · refine ⟨⟨fun _ => hchecks, fun _ => ⟨_, rfl⟩⟩, fun s hs => ?_⟩
    obtain rfl := Except.ok.inj hs
    refine ⟨rfl, ?_, fun r hr => ?_, rfl, rfl, rfl, fun n hn => ?_, fun x hx => ?_⟩
    · exact (getReg_resetWith c initMem pcIx).trans (if_pos rfl)
    · exact (getReg_resetWith c initMem r).trans (if_neg hr)
    · exact byteAt_stored (State.resetWith c initMem) _ program hn
    · exact byteAt_stored_outside (State.resetWith c initMem) program hx
  · exact ⟨⟨fun ⟨_, hs⟩ => (by cases hs), fun h => absurd h hchecks⟩, fun _ hs => by cases hs⟩

/-- The fetch at the place of a stored instruction reads its bytes (R56, R66). -/
theorem fetch_stored {s : State} {a : Word} (hvalid : s.cfg.Valid) (hmem : InMainMemory s.cfg a.toNat 1)
    (hal : a.toNat % 8 = 0) (b : InstrBytes) :
    fetch (s.setMem (s.mem.writeList a.toNat b.toList)) a = .ok b := by
  rw [fetch_mainMemory (s := s.setMem (s.mem.writeList a.toNat b.toList)) hvalid hmem hal]
  have byte (k : Nat) (hk : k < 8) := byteAt_stored s a.toNat b.toList (n := k) hk
  rw [byte 0 (by omega), byte 1 (by omega), byte 2 (by omega), byte 3 (by omega), byte 4 (by omega),
    byte 5 (by omega), byte 6 (by omega), byte 7 (by omega)]
  rfl

/-- Settles O59: the placed bytes are fetched, and the step runs what they decode to. -/
theorem placedWordIsTheNextInstruction : Obligations.PlacedWordIsTheNextInstruction := by
  intro s w hvalid hrunning hmem hal
  have hword : BitVec.ofNat 64 (w.toNat % 2 ^ 64) = w := by
    rw [Nat.mod_eq_of_lt w.isLt, BitVec.ofNat_toNat, BitVec.setWidth_eq]
  rw [State.withFetchWord, hword]
  exact step_of_fetch_ok (s := s.setMem _) hrunning (fetch_stored hvalid hmem hal (InstrBytes.ofWord w))

/-! The run. -/

section Run
variable {s t : State}

/-- A step that leaves the engine running has counted one instruction, and no step counts more (R123, R125). -/
theorem cycles_of_step (h : step s = .next t) :
    t.cycles ≤ s.cycles + 1 ∧ (t.run = .running → t.cycles = s.cycles + 1) := by
  obtain ⟨-, ⟨k, -, rfl⟩ | ⟨b, hfetch, -⟩⟩ := step_cases h
  · exact ⟨Nat.le_succ _, fun hrun => by cases hrun⟩
  · have hcount := (cyclesCountDecodedInstructions s t h).1 b hfetch
    exact ⟨hcount.le, fun _ => hcount⟩

/-- A run of `n + m` steps is a run of `n` and then one of `m`. -/
theorem runFor_add (s : State) (n m : Nat) : s.runFor (n + m) = (s.runFor n).runFor m := by
  induction n generalizing s with
  | zero => rw [Nat.zero_add, runFor_zero]
  | succ n ih =>
    rw [Nat.add_right_comm]
    by_cases hrun : s.run = .running
    · obtain ⟨t, ht⟩ := exists_step_of_running hrun
      rw [runFor_succ_of_step ht, runFor_succ_of_step ht, ih]
    · rw [runFor_of_not_running hrun, runFor_of_not_running hrun, runFor_of_not_running hrun]

/-- Once a run is over it stays where it is (R126). -/
theorem runFor_add_of_over {n : Nat} (h : (s.runFor n).run ≠ .running) (m : Nat) :
    s.runFor (n + m) = s.runFor n := by
  rw [runFor_add, runFor_of_not_running h]

/-- A run counts at most one instruction a step, and exactly one while the engine is still running. -/
theorem cycles_runFor (s : State) (n : Nat) :
    (s.runFor n).cycles ≤ s.cycles + n ∧ ((s.runFor n).run = .running → (s.runFor n).cycles = s.cycles + n) := by
  induction n generalizing s with
  | zero => exact ⟨le_refl _, fun _ => rfl⟩
  | succ n ih =>
    by_cases hrun : s.run = .running
    · obtain ⟨t, ht⟩ := exists_step_of_running hrun
      obtain ⟨hle, heq⟩ := cycles_of_step ht
      obtain ⟨hle', heq'⟩ := ih t
      rw [runFor_succ_of_step ht]
      refine ⟨by omega, fun hend => ?_⟩
      have hnext : t.run = .running := by
        by_contra hover
        rw [runFor_of_not_running hover] at hend
        exact hover hend
      have := heq hnext
      have := heq' hend
      omega
    · rw [runFor_of_not_running hrun]
      exact ⟨Nat.le_add_right _ _, fun h => absurd h hrun⟩

/-- A run ends in one state at most (R126, R129). -/
theorem endsIn_unique {u : State} (ht : s.EndsIn t) (hu : s.EndsIn u) : t = u := by
  obtain ⟨⟨n, rfl⟩, hn⟩ := ht
  obtain ⟨⟨m, rfl⟩, hm⟩ := hu
  rcases Nat.le_total n m with hle | hle
  · obtain ⟨d, rfl⟩ := Nat.exists_eq_add_of_le hle
    exact (runFor_add_of_over hn d).symm
  · obtain ⟨d, rfl⟩ := Nat.exists_eq_add_of_le hle
    exact runFor_add_of_over hm d

end Run

/-- Settles O60: the count along a run, the end it stays in, and the cap as the number of steps left to it. -/
theorem runsStopAtAnEndOrAtTheCap : Obligations.RunsStopAtAnEndOrAtTheCap := by
  intro s n cap
  have hcap : s.cycles + (cap - s.cycles) = max s.cycles cap := by omega
  obtain ⟨hcapped, hreached⟩ := cycles_runFor s (cap - s.cycles)
  rw [hcap] at hcapped hreached
  exact ⟨(cycles_runFor s n).2, runFor_add_of_over, fun _ _ => endsIn_unique, hcapped, hreached⟩

end Sys2Proof.Machine
